-- ==== Sys2Proof/Word.lean ====
section
/-! DEFINITION. The word types of the unit: the byte of a string output, the command word, the 16-bit value pattern, the 64-bit
ports, and the four number-format tags. -/

namespace Sys2Proof

/-- One byte of STR (R9, R44). -/
abbrev Byte := BitVec 8

/-- The command word CMD[7:0] (R60). -/
abbrev Cmd := BitVec 8

/-- A 16-bit value pattern, binary16 or bfloat16 (R27): every one of the 65,536 patterns is a valid value. -/
abbrev Pat16 := BitVec 16

/-- The value of a 64-bit port A, B or R (R9). -/
abbrev Word64 := BitVec 64

/-- The format tags of R13: `h` binary16, `bf` bfloat16, `s` binary32, `d` binary64. -/
inductive Tag where
  | h
  | bf
  | s
  | d
  deriving DecidableEq, Repr

/-- The format selected by F = CMD[7] (R60): F = 0 is binary16 (`.H`), F = 1 is bfloat16 (`.BF`). -/
inductive Fmt where
  | h
  | bf
  deriving DecidableEq, Repr

/-- The tag of a command's format (R68: `F == 0 ? H : BF`). -/
def Fmt.tag : Fmt → Tag
  | .h => .h
  | .bf => .bf

end Sys2Proof
end

