-- ==== Sys2Proof/Syntax.lean ====
section
/-! DEFINITION. The instruction set whole: one constructor per row of the opcode map (R64). An operation exists for both formats
(R60), so each carries the format its command's F bit selects; the operands are not in the command word but on the request's ports
A and B (R61, R62), so they are no fields of the instruction. -/

namespace Sys2Proof

/-- The 32 operations of the opcode map (R64). -/
inductive Instr where
  /-- FROMBITS, OP = 0x00 (R155). -/
  | frombits (f : Fmt)
  /-- TOBITS, OP = 0x01 (R156). -/
  | tobits (f : Fmt)
  /-- FROMF32, OP = 0x02 (R157). -/
  | fromf32 (f : Fmt)
  /-- FROMF64, OP = 0x03 (R158). -/
  | fromf64 (f : Fmt)
  /-- TOF32, OP = 0x04 (R159). -/
  | tof32 (f : Fmt)
  /-- TOF64, OP = 0x05 (R160). -/
  | tof64 (f : Fmt)
  /-- FROMI64, OP = 0x06 (R161). -/
  | fromi64 (f : Fmt)
  /-- FROMU64, OP = 0x07 (R162). -/
  | fromu64 (f : Fmt)
  /-- ISNAN, OP = 0x08 (R220). -/
  | isnan (f : Fmt)
  /-- ISINF, OP = 0x09 (R221). -/
  | isinf (f : Fmt)
  /-- ISFINITE, OP = 0x0A (R222). -/
  | isfinite (f : Fmt)
  /-- ISSIGNNEG, OP = 0x0B (R223). -/
  | issignneg (f : Fmt)
  /-- CLASSIFY, OP = 0x0C (R224). -/
  | classify (f : Fmt)
  /-- ADD, OP = 0x10 (R190). -/
  | add (f : Fmt)
  /-- SUB, OP = 0x11 (R191). -/
  | sub (f : Fmt)
  /-- MUL, OP = 0x12 (R192). -/
  | mul (f : Fmt)
  /-- DIV, OP = 0x13 (R193). -/
  | div (f : Fmt)
  /-- REM, OP = 0x14 (R194). -/
  | rem (f : Fmt)
  /-- NEG, OP = 0x15 (R195). -/
  | neg (f : Fmt)
  /-- EQ, OP = 0x18 (R227). -/
  | eq (f : Fmt)
  /-- NE, OP = 0x19 (R228). -/
  | ne (f : Fmt)
  /-- LT, OP = 0x1A (R229). -/
  | lt (f : Fmt)
  /-- LE, OP = 0x1B (R230). -/
  | le (f : Fmt)
  /-- GT, OP = 0x1C (R231). -/
  | gt (f : Fmt)
  /-- GE, OP = 0x1D (R232). -/
  | ge (f : Fmt)
  /-- TOTALCMP, OP = 0x1E (R234). -/
  | totalcmp (f : Fmt)
  /-- MIN, OP = 0x20 (R236). -/
  | min (f : Fmt)
  /-- MAX, OP = 0x21 (R237). -/
  | max (f : Fmt)
  /-- MINIMUM, OP = 0x22 (R238). -/
  | minimum (f : Fmt)
  /-- MAXIMUM, OP = 0x23 (R239). -/
  | maximum (f : Fmt)
  /-- FMTBITS, OP = 0x28 (R260). -/
  | fmtbits (f : Fmt)
  /-- FMTDEC, OP = 0x29 (R261). -/
  | fmtdec (f : Fmt)
  deriving DecidableEq, Repr

/-- The format of a command's instruction (R60). -/
def Instr.fmt : Instr → Fmt
  | .frombits f => f
  | .tobits f => f
  | .fromf32 f => f
  | .fromf64 f => f
  | .tof32 f => f
  | .tof64 f => f
  | .fromi64 f => f
  | .fromu64 f => f
  | .isnan f => f
  | .isinf f => f
  | .isfinite f => f
  | .issignneg f => f
  | .classify f => f
  | .add f => f
  | .sub f => f
  | .mul f => f
  | .div f => f
  | .rem f => f
  | .neg f => f
  | .eq f => f
  | .ne f => f
  | .lt f => f
  | .le f => f
  | .gt f => f
  | .ge f => f
  | .totalcmp f => f
  | .min f => f
  | .max f => f
  | .minimum f => f
  | .maximum f => f
  | .fmtbits f => f
  | .fmtdec f => f

end Sys2Proof
end

