-- ==== Sys2Proof/Decode.lean ====
section
/-! DEFINITION. Decoding a command word (R60, R64, R68) and the encoder beside it. Decoding is total on every 8-bit CMD and depends
on nothing but CMD (R61). A reserved OP (R66) is rejected by name. FMTDEC always decodes; that it is illegal while FEAT_STD = 0
(R262) is checked by its meaning, and `commandLegal` states R68's two conditions together. -/

namespace Sys2Proof

/-- Why a command word names no operation. -/
inductive Reject where
  /-- CMD[6:0] is one of the reserved OP values of R66. -/
  | reservedOp (op : BitVec 7)
  deriving DecidableEq, Repr

/-- F = CMD[7] (R60). -/
def cmdFmt (cmd : Cmd) : Fmt := if cmd.getLsbD 7 then .bf else .h

/-- OP = CMD[6:0] (R60). -/
def cmdOp (cmd : Cmd) : BitVec 7 := cmd.extractLsb' 0 7

/-- The opcode map of R64: the operation an OP value names, in the format `f`. -/
def decodeOp (f : Fmt) (op : Nat) : Option Instr :=
  match op with
  | 0x00 => some (.frombits f)
  | 0x01 => some (.tobits f)
  | 0x02 => some (.fromf32 f)
  | 0x03 => some (.fromf64 f)
  | 0x04 => some (.tof32 f)
  | 0x05 => some (.tof64 f)
  | 0x06 => some (.fromi64 f)
  | 0x07 => some (.fromu64 f)
  | 0x08 => some (.isnan f)
  | 0x09 => some (.isinf f)
  | 0x0A => some (.isfinite f)
  | 0x0B => some (.issignneg f)
  | 0x0C => some (.classify f)
  | 0x10 => some (.add f)
  | 0x11 => some (.sub f)
  | 0x12 => some (.mul f)
  | 0x13 => some (.div f)
  | 0x14 => some (.rem f)
  | 0x15 => some (.neg f)
  | 0x18 => some (.eq f)
  | 0x19 => some (.ne f)
  | 0x1A => some (.lt f)
  | 0x1B => some (.le f)
  | 0x1C => some (.gt f)
  | 0x1D => some (.ge f)
  | 0x1E => some (.totalcmp f)
  | 0x20 => some (.min f)
  | 0x21 => some (.max f)
  | 0x22 => some (.minimum f)
  | 0x23 => some (.maximum f)
  | 0x28 => some (.fmtbits f)
  | 0x29 => some (.fmtdec f)
  | _ => none

/-- Decoding (R68), without the FEAT_STD condition. -/
def decode (cmd : Cmd) : Except Reject Instr :=
  match decodeOp (cmdFmt cmd) (cmdOp cmd).toNat with
  | some i => .ok i
  | none => .error (.reservedOp (cmdOp cmd))

/-- R68's decision whether a command is served or raises IllegalOp: its OP is in the map, and it is not FMTDEC while FEAT_STD = 0. -/
def commandLegal (featStd : Bool) (cmd : Cmd) : Bool :=
  match decode cmd with
  | .ok (.fmtdec _) => featStd
  | .ok _ => true
  | .error _ => false

/-- The OP column of R64. -/
def opNumber : Instr → Nat
  | .frombits _ => 0x00
  | .tobits _ => 0x01
  | .fromf32 _ => 0x02
  | .fromf64 _ => 0x03
  | .tof32 _ => 0x04
  | .tof64 _ => 0x05
  | .fromi64 _ => 0x06
  | .fromu64 _ => 0x07
  | .isnan _ => 0x08
  | .isinf _ => 0x09
  | .isfinite _ => 0x0A
  | .issignneg _ => 0x0B
  | .classify _ => 0x0C
  | .add _ => 0x10
  | .sub _ => 0x11
  | .mul _ => 0x12
  | .div _ => 0x13
  | .rem _ => 0x14
  | .neg _ => 0x15
  | .eq _ => 0x18
  | .ne _ => 0x19
  | .lt _ => 0x1A
  | .le _ => 0x1B
  | .gt _ => 0x1C
  | .ge _ => 0x1D
  | .totalcmp _ => 0x1E
  | .min _ => 0x20
  | .max _ => 0x21
  | .minimum _ => 0x22
  | .maximum _ => 0x23
  | .fmtbits _ => 0x28
  | .fmtdec _ => 0x29

/-- The F bit of a format (R60). -/
def fmtBit : Fmt → BitVec 1
  | .h => 0#1
  | .bf => 1#1

/-- The command word of an instruction: F above OP (R60). -/
def encode (i : Instr) : Cmd := fmtBit i.fmt ++ BitVec.ofNat 7 (opNumber i)

/-- The instruction the decoder reads from a command word given as a number: bits above `nbits` are 0, and the command is the low
8 bits (R61: every command is one 8-bit word). -/
def decodeTableWord (nbits w : Nat) : Option Instr :=
  match decode (BitVec.ofNat 8 (w % 2 ^ nbits)) with
  | .ok i => some i
  | .error _ => none

end Sys2Proof
end

