-- ==== Sys2Proof/Machine/Formats.lean ====
section
/-! DEFINITION. The number formats and the rounding policy of 40_formats.md: layouts and constants (R100 to R104), fields and packing
(R105), classes (R106), exact values as whole multiples of a format's smallest subnormal (R107), the quiet bit and the canonical NaN
(R108), the rounding increment (R110) and the exact narrowing `RNE_T` (R112). Arithmetic is on unbounded integers (R12). -/

namespace Sys2Proof.Machine

/-- Exponent field width `ew_T` (R100 to R104). -/
def ew : Tag → Nat
  | .h => 5
  | .bf => 8
  | .s => 8
  | .d => 11

/-- Mantissa field width `mw_T` (R100 to R104). -/
def mw : Tag → Nat
  | .h => 10
  | .bf => 7
  | .s => 23
  | .d => 52

/-- Exponent bias `bias_T` (R100 to R104). -/
def bias : Tag → Nat
  | .h => 15
  | .bf => 127
  | .s => 127
  | .d => 1023

/-- `EMAXF_T`, the all-ones exponent field (R104). -/
def emaxField (T : Tag) : Nat := 2 ^ ew T - 1

/-- `p_T`, the precision in bits with the implicit leading bit (R104). -/
def prec (T : Tag) : Nat := mw T + 1

/-- `mw_T - emin_T` (R104): the smallest subnormal of T is `2 ^ -(unitScale T)`. -/
def unitScale (T : Tag) : Nat := mw T + bias T - 1

/-- The mantissa value of T's quiet bit (R108). -/
def quietBit (T : Tag) : Nat := 2 ^ (mw T - 1)

/-- Sign, exponent field and mantissa field of a pattern. -/
structure Fields where
  s : Bool
  e : Nat
  m : Nat
  deriving DecidableEq, Repr

/-- `fields_T(x)` (R105). -/
def fields {n : Nat} (T : Tag) (x : BitVec n) : Fields where
  s := x.getLsbD (ew T + mw T)
  e := x.toNat / 2 ^ mw T % 2 ^ ew T
  m := x.toNat % 2 ^ mw T

/-- `pack_T(s, e, m)` (R105), as a pattern of `n` bits: for T's own width, the pattern with those three fields. -/
def pack {n : Nat} (T : Tag) (s : Bool) (e m : Nat) : BitVec n :=
  BitVec.ofNat n (s.toNat * 2 ^ (ew T + mw T) + e * 2 ^ mw T + m)

/-- The classes of R106. -/
inductive FClass where
  | nan
  | infinite
  | zero
  | subnormal
  | normal
  deriving DecidableEq, Repr

/-- `class_T(x)` (R106). -/
def classOf {n : Nat} (T : Tag) (x : BitVec n) : FClass :=
  let f := fields T x
  if f.e = emaxField T then (if f.m = 0 then .infinite else .nan)
  else if f.e = 0 then (if f.m = 0 then .zero else .subnormal)
  else .normal

/-- `|value_T(x)|` of a finite pattern as a multiple of T's smallest subnormal, an integer (R107): `m` for a zero or a subnormal,
`(2^mw + m) * 2^(e - 1)` for a normal. An infinity gets the same formula's number, which is above every finite one. -/
def magUnits {n : Nat} (T : Tag) (x : BitVec n) : Nat :=
  let f := fields T x
  if f.e = 0 then f.m else (2 ^ mw T + f.m) * 2 ^ (f.e - 1)

/-- `value_T(x)` as a multiple of T's smallest subnormal, with its sign; both zeros are 0 (R107). -/
def signedUnits {n : Nat} (T : Tag) (x : BitVec n) : Int :=
  if (fields T x).s then -(magUnits T x : Int) else (magUnits T x : Int)

/-- The canonical quiet NaN `QNAN_T` (R108): sign 0, exponent all ones, only the quiet bit in the mantissa. -/
def qnan {n : Nat} (T : Tag) : BitVec n := pack T false (emaxField T) (quietBit T)

/-- A pattern with its quiet bit set, `x | QBIT_T` (R108). -/
def setQuiet {n : Nat} (T : Tag) (x : BitVec n) : BitVec n := x ||| BitVec.ofNat n (quietBit T)

/-- The rounding increment `RNE_INC(q, rem, d)` (R110). -/
def rneInc (q rem d : Nat) : Nat :=
  if 2 ^ (d - 1) < rem then 1
  else if rem = 2 ^ (d - 1) then q % 2
  else 0

/-- `RNE_T(s, v)` (R112) for the magnitude `v = num / den`. In units of T's smallest subnormal v is `N / den`; its binade lies `j` above
the subnormal one (`E = emin_T + j`), so its unit in the last place is `2^j` and `k`, `r` are quotient and remainder by `den * 2^j`. -/
def rne {n : Nat} (T : Tag) (s : Bool) (num den : Nat) : BitVec n :=
  let N := num * 2 ^ unitScale T
  -- the overflow threshold 2^emax * (2 - 2^-p), in the same units
  if den * ((2 ^ (prec T + 1) - 1) * 2 ^ (emaxField T - 3)) ≤ N then pack T s (emaxField T) 0
  else
    let j := Nat.log2 (N / den) - mw T
    let u := den * 2 ^ j
    let k0 := N / u
    let r := N % u
    let k := if u < 2 * r ∨ (2 * r = u ∧ k0 % 2 = 1) then k0 + 1 else k0
    if k = 2 ^ prec T then pack T s (j + 2) 0
    else if k < 2 ^ mw T then pack T s 0 k
    else pack T s (j + 1) (k - 2 ^ mw T)

end Sys2Proof.Machine
end

