-- ==== Sys2Proof/Machine/Codec.lean ====
section
/-! DEFINITION. The bit codec of 41_codec.md: the exact widenings (R141 to R144), the narrowing of a NaN (R146), the rounded narrowings
(R147 to R150), and the exact definition they compute (R113, R145). -/

namespace Sys2Proof.Machine

/-- The widening algorithm of R141, R142 and R144: a zero keeps its sign, a subnormal is normalised (`sub` is its re-bias constant
beside the index `n` of the highest 1 bit), an infinity or NaN keeps its mantissa left-aligned, a normal is re-biased. -/
def widenRebias {n : Nat} (T W : Tag) (rebias sub : Nat) (x : Pat16) : BitVec n :=
  let f := fields T x
  if f.e = 0 then
    if f.m = 0 then pack W f.s 0 0
    else
      let hi := Nat.log2 f.m
      pack W f.s (hi + sub) ((f.m <<< (mw W - hi)) % 2 ^ mw W)
  else if f.e = emaxField T then pack W f.s (emaxField W) (f.m <<< (mw W - mw T))
  else pack W f.s (f.e + rebias) (f.m <<< (mw W - mw T))

/-- `WIDEN_{H->S}` (R141). -/
def widenHS (x : Pat16) : BitVec 32 := widenRebias .h .s 112 103 x

/-- `WIDEN_{H->D}` (R142). -/
def widenHD (x : Pat16) : BitVec 64 := widenRebias .h .d 1008 999 x

/-- `WIDEN_{BF->S}` (R143): zero extension on the right, for every class. -/
def widenBFS (x : Pat16) : BitVec 32 := x ++ 0#16

/-- `WIDEN_{BF->D}` (R144). -/
def widenBFD (x : Pat16) : BitVec 64 := widenRebias .bf .d 896 890 x

/-- `NAN_NARROW_{W->T}(y)` (R146): sign kept, mantissa truncated, the quiet bit forced when nothing is left. -/
def nanNarrow {n : Nat} (W T : Tag) (y : BitVec n) : Pat16 :=
  let f := fields W y
  let t := f.m >>> (mw W - mw T)
  pack T f.s (emaxField T) (if t = 0 then quietBit T else t)

/-- A sign above 15 bits of exponent and mantissa: `{s, zext_15(q)}` of R147 to R150. -/
def signed15 (s : Bool) (q : Nat) : Pat16 := BitVec.ofNat 16 (s.toNat * 2 ^ 15 + q)

/-- The narrowing algorithm of R147, R148 and R150, with the exponent re-biased by `rebias`. The result's exponent and mantissa are one
field, so a rounding carry runs into the exponent and up to infinity (R111). -/
def narrowRebias {n : Nat} (W T : Tag) (rebias : Nat) (y : BitVec n) : Pat16 :=
  let f := fields W y
  if f.e = emaxField W then
    if f.m = 0 then pack T f.s (emaxField T) 0 else nanNarrow W T y
  else
    let E : Int := (f.e : Int) - rebias
    if (emaxField T : Int) ≤ E then pack T f.s (emaxField T) 0
    else if E ≤ 0 then
      if E < -(mw T : Int) then pack T f.s 0 0
      else
        let M := 2 ^ mw W + f.m
        let sh := ((mw W - mw T + 1 : Nat) - E).toNat
        let q := M >>> sh
        signed15 f.s (q + rneInc q (M % 2 ^ sh) sh)
    else
      let drop := mw W - mw T
      let q := (E.toNat <<< mw T) + f.m >>> drop
      signed15 f.s (q + rneInc q (f.m % 2 ^ drop) drop)

/-- `NARROW_{S->H}` (R147). -/
def narrowSH (y : BitVec 32) : Pat16 := narrowRebias .s .h 112 y

/-- `NARROW_{D->H}` (R148). -/
def narrowDH (y : BitVec 64) : Pat16 := narrowRebias .d .h 1008 y

/-- `NARROW_{S->BF}` (R149): the upper half, rounded by the lower half. -/
def narrowSBF (y : BitVec 32) : Pat16 :=
  if classOf .s y = .nan then nanNarrow .s .bf y
  else
    let q := y.toNat / 2 ^ 16
    BitVec.ofNat 16 (q + rneInc q (y.toNat % 2 ^ 16) 16)

/-- `NARROW_{D->BF}` (R150), one direct rounding. -/
def narrowDBF (y : BitVec 64) : Pat16 := narrowRebias .d .bf 896 y

/-- `NARROW_{W->T}(y)` as R113 defines it, by the exact rounding of R112. The bit algorithms above compute this function (R145). -/
def narrowExact {n : Nat} (W T : Tag) (y : BitVec n) : Pat16 :=
  let s := (fields W y).s
  match classOf W y with
  | .nan => nanNarrow W T y
  | .infinite => pack T s (emaxField T) 0
  | .zero | .subnormal | .normal => rne T s (magUnits W y) (2 ^ unitScale W)

/-- The widening to binary32 of the command's format: R141 or R143. -/
def widenToS : Fmt → Pat16 → BitVec 32
  | .h => widenHS
  | .bf => widenBFS

/-- The widening to binary64 of the command's format: R142 or R144. -/
def widenToD : Fmt → Pat16 → BitVec 64
  | .h => widenHD
  | .bf => widenBFD

/-- The narrowing from binary32 to the command's format: R147 or R149. -/
def narrowFromS : Fmt → BitVec 32 → Pat16
  | .h => narrowSH
  | .bf => narrowSBF

/-- The narrowing from binary64 to the command's format: R148 or R150. -/
def narrowFromD : Fmt → BitVec 64 → Pat16
  | .h => narrowDH
  | .bf => narrowDBF

end Sys2Proof.Machine
end

