-- ==== Sys2Proof/Machine/Binary32.lean ====
section
/-! DEFINITION. The binary32 arithmetic of 42_arith.md (R181 to R186), on patterns that are not NaN, and the promote-compute-demote
composite (R187, R188). Values are whole multiples of `2^-149`, binary32's smallest subnormal, so sums, products, quotients and
remainders are exact before the one rounding to binary32. `none` is the token INVALID. -/

namespace Sys2Proof.Machine

/-- The denominator `2^149` that turns a count of binary32's smallest subnormals into the value. -/
def sUnit : Nat := 2 ^ unitScale .s

/-- `F32_ADD(A, B)` (R182). -/
def f32Add (A B : BitVec 32) : Option (BitVec 32) :=
  let sa := (fields .s A).s
  let sb := (fields .s B).s
  if classOf .s A = .infinite then
    if classOf .s B = .infinite then (if sa = sb then some A else none) else some A
  else if classOf .s B = .infinite then some B
  else
    let v := signedUnits .s A + signedUnits .s B
    if v = 0 then
      if classOf .s A = .zero ∧ classOf .s B = .zero ∧ sa = sb then some (pack .s sa 0 0) else some (pack .s false 0 0)
    else some (rne .s (decide (v < 0)) v.natAbs sUnit)

/-- `F32_SUB(A, B)` (R183): addition of B with its sign bit inverted. -/
def f32Sub (A B : BitVec 32) : Option (BitVec 32) := f32Add A (B ^^^ 0x80000000#32)

/-- `F32_MUL(A, B)` (R184). -/
def f32Mul (A B : BitVec 32) : Option (BitVec 32) :=
  let s := xor (fields .s A).s (fields .s B).s
  if (classOf .s A = .infinite ∧ classOf .s B = .zero) ∨ (classOf .s A = .zero ∧ classOf .s B = .infinite) then none
  else if classOf .s A = .infinite ∨ classOf .s B = .infinite then some (pack .s s (emaxField .s) 0)
  else some (rne .s s (magUnits .s A * magUnits .s B) (sUnit * sUnit))

/-- `F32_DIV(A, B)` (R185). -/
def f32Div (A B : BitVec 32) : Option (BitVec 32) :=
  let s := xor (fields .s A).s (fields .s B).s
  if (classOf .s A = .zero ∧ classOf .s B = .zero) ∨ (classOf .s A = .infinite ∧ classOf .s B = .infinite) then none
  else if classOf .s A = .infinite then some (pack .s s (emaxField .s) 0)
  else if classOf .s B = .infinite then some (pack .s s 0 0)
  else if classOf .s B = .zero then some (pack .s s (emaxField .s) 0)
  else some (rne .s s (magUnits .s A) (magUnits .s B))

/-- `F32_REM(A, B)` (R186), the truncated remainder. -/
def f32Rem (A B : BitVec 32) : Option (BitVec 32) :=
  let sa := (fields .s A).s
  if classOf .s A = .infinite ∨ classOf .s B = .zero then none
  else if classOf .s B = .infinite then some A
  else if classOf .s A = .zero then some A
  else
    let va := signedUnits .s A
    let vb := signedUnits .s B
    let r := va - vb * Int.tdiv va vb
    if r = 0 then some (pack .s sa 0 0) else some (rne .s (decide (r < 0)) r.natAbs sUnit)

/-- `BINOP_T(op, a, b)` (R188) with the NaN policy of R187: the first NaN operand, quieted, else the canonical NaN when the binary32
operation is INVALID, else the binary32 result narrowed. -/
def binop (f : Fmt) (op : BitVec 32 → BitVec 32 → Option (BitVec 32)) (a b : Pat16) : Pat16 :=
  if classOf f.tag a = .nan then setQuiet f.tag a
  else if classOf f.tag b = .nan then setQuiet f.tag b
  else match op (widenToS f a) (widenToS f b) with
    | none => qnan f.tag
    | some z => narrowFromS f z

end Sys2Proof.Machine
end

