-- ==== Sys2Proof/Config.lean ====
section
/-! DEFINITION. The open values of the spec: what nothing in the model may know. The two Boolean parameters HW_ACCEL (R5) and FEAT_STD
(R7) are fields of the state (`cap`, `featStd`), constant over a run, so that a statement about every state covers both values. -/

namespace Sys2Proof

/-- The oracle behind NAN_DRAW (R6): for a mantissa width and the number of the draw, any number. `Machine.nanDraw` turns it into a
non-zero mantissa of that width, and every sequence of such mantissas comes from some choice of this constant. FREE VALUE (log 4). -/
opaque Config.nanDrawRaw (w k : Nat) : Nat

/-- The function behind DEC_RENDER (R8): for a format and a pattern, any byte sequence. `Machine.decRender` restricts it to the
properties of R263, and every function that has them comes from some choice of this constant. FREE VALUE (log 5). -/
opaque Config.decRenderRaw : Fmt → Pat16 → List Byte

end Sys2Proof
end

