-- ==== Sys2Proof/Machine/Flags.lean ====
section
/-! DEFINITION. The unit has no status flags, condition codes, exception flags or rounding-mode control (R26), so no operation computes
one. The only condition it reports is the ERR bit of a response, an output of that response alone (R26, R301). -/

namespace Sys2Proof.Machine

/-- ERR of a legal command: cause code 0, no exception (R301). -/
def errNone : BitVec 1 := 0#1

/-- ERR of an illegal command: cause code 1, IllegalOp (R301). -/
def errIllegalOp : BitVec 1 := 1#1

end Sys2Proof.Machine
end

