-- ==== Sys2Proof/Machine/State.lean ====
section
/-! DEFINITION. The state of the machine. The unit's own state is the capability latch CAP and, once a request has been answered, the
outputs R, ERR and STR (R20, R31). The rest is the request/response interface of R22 held as plain data: the request on the ports, the
requests the hosts have issued, the answers they have received, the reset input, and the open choices a run makes. -/

namespace Sys2Proof.Machine

/-- A request (R22): the command word and the two operand ports. `requester` names the host that issued it, so that its response goes
back to it (R310); the unit never reads it. -/
structure Request where
  requester : Nat
  cmd : Cmd
  a : Word64
  b : Word64
  deriving DecidableEq, Repr

/-- A response (R22): R, ERR and STR. -/
structure Response where
  r : Word64
  err : BitVec 1
  str : List Byte
  deriving DecidableEq, Repr

/-- An answered request with its one response (R22). -/
structure Delivery where
  request : Request
  response : Response
  deriving DecidableEq, Repr

/-- The one fault of the unit. No step ends in it: the spec gives IllegalOp a response and the next request is served normally (R301),
so the machine goes on, and the fault is recorded in the state's field `fault`, as R301 and 93 row 10 ask of a model. -/
inductive Fault where
  /-- IllegalOp (R301), recorded by `takeIllegalOp` when a reserved OP or FMTDEC with FEAT_STD = 0 is served. Safe: a claim about a
  run can ask that no fault is recorded. -/
  | illegalOp (cmd : Cmd)
  deriving DecidableEq, Repr

/-- Why a step has no meaning. -/
inductive Refusal where
  /-- An operation of the opcode map without a meaning in this model. Raised by no arm: every operation has its meaning. Safe. -/
  | notModelled (mnemonic : String)
  deriving DecidableEq, Repr

/-- The machine's state. -/
structure State where
  /-- CAP, with the one field HW_ACCEL in bit 0 (R20, R21): 0 portable path, 1 hardware-intrinsic path. Written only by reset. -/
  cap : BitVec 1
  /-- FEAT_STD (R7, R30): configuration, constant over a run. -/
  featStd : Bool
  /-- The `hw_accel_cap` input (R21, R330); `none` when the capability cannot be verified. -/
  hwAccelCap : Option Bool
  /-- A reset has been raised and not yet carried out (R330). -/
  resetPending : Bool
  /-- The requests issued and not yet answered, oldest first (R22, R25, R310). -/
  requests : List Request
  /-- The service order the run takes among the requesters, which the spec leaves open (R48, R310): one number a served request,
  0 once the list is used up. -/
  schedule : List Nat
  /-- The input ports: the request being served (R22). A request presented overwrites all of it, so no operand outlives its request
  (R23). -/
  port : Request
  /-- The outputs R, ERR and STR of the last response; `none` until the first request is answered (R31). -/
  out : Option Response
  /-- The answered requests, in the order of service, as their requesters have received them (R22, R310). -/
  delivered : List Delivery
  /-- The first IllegalOp of the run, never cleared (R301, 93 row 10). The unit keeps no such register; the model records it. -/
  fault : Option Fault
  /-- How many NaN mantissas have been drawn (R6). The model's own counter for the free value `Config.nanDrawRaw` (log 4). -/
  draws : Nat
  deriving DecidableEq, Repr

/-- The machine right after a reset (R31, R330, R332). CAP is 0, the value reset writes when the capability cannot be verified (log 2),
and no response exists yet. FEAT_STD, the ports and the hosts' side have no reset value in the spec: the values here are named in
log 3, 4, 7 and 13. -/
def State.reset : State where
  cap := 0
  featStd := true
  hwAccelCap := none
  resetPending := false
  requests := []
  schedule := []
  port := ⟨0, 0, 0, 0⟩
  out := none
  delivered := []
  fault := none
  draws := 0

end Sys2Proof.Machine
end

