-- ==== Sys2Proof/Machine/Ops.lean ====
section
/-! DEFINITION. The named operations over the state: what a host does to the unit (issue, reset, read), carrying a reset out (R330),
presenting a request on the ports (R22, R48, R310), giving the one response (R22), the illegal-command exception (R301) and the hardware
dispatch of NaN results (R115). -/

namespace Sys2Proof.Machine

/-! ### The host's moves (R22, R330) -/

/-- A host issues a request. During reset it has no move that issues one (R331, 93 row 15): nothing changes. -/
def hostIssue (q : Request) (s : State) : State :=
  if s.resetPending then s else { s with requests := s.requests ++ [q] }

/-- The outside raises reset and drives the `hw_accel_cap` input, `none` when the capability cannot be verified (R330). -/
def hostReset (hwAccelCap : Option Bool) (s : State) : State :=
  { s with resetPending := true, hwAccelCap := hwAccelCap }

/-- A host reads R, ERR and STR: no value before the first response (R31, R332, 93 row 13). -/
def hostRead (s : State) : Option Response := s.out

/-! ### Reset (R330 to R333) -/

/-- The value reset writes into CAP: the sampled input, or 0 when the capability cannot be verified (R21, R330). -/
def sampledCap : Option Bool → BitVec 1
  | some true => 1#1
  | some false => 0#1
  | none => 0#1

/-- The reset sequence (R330): CAP is sampled, a request in progress gets no response, no response exists until a later request is
answered, and the unit accepts requests again (R331). Configuration is not reset (R332). The record of the run so far is the hosts' and
the model's own and stays (log 6, log 9). -/
def takeReset (s : State) : State :=
  { s with cap := sampledCap s.hwAccelCap, resetPending := false, requests := [], out := none }

/-! ### Presenting a request -/

/-- The requester the run's schedule serves next; the oldest request's when the schedule is used up (R25, R310). -/
def servedRequester (s : State) : Option Nat :=
  (s.requests[s.schedule.headD 0 % s.requests.length]?).map Request.requester

/-- The oldest request of one requester, and the other requests: each requester is served in the order of its requests (R310). -/
def takeOldest (who : Nat) : List Request → Option (Request × List Request)
  | [] => none
  | q :: qs =>
    if q.requester = who then some (q, qs)
    else (takeOldest who qs).map (fun p => (p.1, q :: p.2))

/-- The next request to be served, put on the ports; `none` when no request is waiting. -/
def presentRequest (s : State) : Option State :=
  match servedRequester s with
  | none => none
  | some who => (takeOldest who s.requests).map
      (fun p => { s with port := p.1, requests := p.2, schedule := s.schedule.tail })

/-! ### Responses -/

/-- The one response to the request on the ports (R22): R, ERR and STR take it, and the request's host receives it (R310). -/
def respond (resp : Response) (s : State) : State :=
  { s with out := some resp, delivered := s.delivered ++ [⟨s.port, resp⟩] }

/-- A legal command's response with an empty STR (R63): the result in R, ERR 0. -/
def answer (r : Word64) (s : State) : Host.Outcome State Fault Refusal :=
  .next (respond ⟨r, errNone, []⟩ s)

/-- A legal command's response with a string: its byte count in R (R63, kind strlen). -/
def answerStr (str : List Byte) (s : State) : Host.Outcome State Fault Refusal :=
  .next (respond ⟨BitVec.ofNat 64 str.length, errNone, str⟩ s)

/-- The fault record of the run: the first IllegalOp, never cleared (R301, 93 row 10). -/
def recordIllegalOp (s : State) : State :=
  { s with fault := match s.fault with
      | none => some (.illegalOp s.port.cmd)
      | some x => some x }

/-- Taking the illegal-command exception (R301): the response is R = 0, ERR = 1 and STR empty; no unit state is saved or changed
(R303, R304), so the next request is served normally. The model records the fault. -/
def takeIllegalOp (s : State) : Host.Outcome State Fault Refusal :=
  .next (respond ⟨0, errIllegalOp, []⟩ (recordIllegalOp s))

/-! ### Hardware dispatch -/

/-- One draw of NAN_DRAW (R6): a mantissa of width `w` other than 0, otherwise unknown. -/
def nanDraw (w k : Nat) : Nat := 1 + Config.nanDrawRaw w k % (2 ^ w - 1)

/-- R115: on the hardware-intrinsic path a NaN result keeps its sign and exponent and takes a drawn mantissa; any other result, and
every result on the portable path, is the portable one. -/
def hwDispatch {n : Nat} (T : Tag) (p : BitVec n) (s : State) : BitVec n × State :=
  if s.cap = 1#1 ∧ classOf T p = .nan then
    (pack T (fields T p).s (emaxField T) (nanDraw (mw T) s.draws), { s with draws := s.draws + 1 })
  else (p, s)

end Sys2Proof.Machine
end

