-- ==== Sys2Proof/Machine/Operands.lean ====
section
/-! DEFINITION. The operand kinds of R62 and the result kinds of R63. An operand is the low field of its port, the bits above it are
ignored (R45); every bit of R a result kind does not name is 0. -/

namespace Sys2Proof.Machine

/-- A = v16 or raw16: A[15:0]. -/
def opA16 (s : State) : Pat16 := s.port.a.setWidth 16

/-- B = v16: B[15:0]. -/
def opB16 (s : State) : Pat16 := s.port.b.setWidth 16

/-- A = f32: A[31:0]. -/
def opF32 (s : State) : BitVec 32 := s.port.a.setWidth 32

/-- A = f64: A[63:0]. -/
def opF64 (s : State) : BitVec 64 := s.port.a

/-- A = i64: the two's-complement value of A[63:0]. -/
def opI64 (s : State) : Int := s.port.a.toInt

/-- A = u64: the unsigned value of A[63:0]. -/
def opU64 (s : State) : Nat := s.port.a.toNat

/-- Result of 16 bits taken as bits, to which R115 does not apply (FROMBITS and TOBITS, R155, R156). -/
def answerBits16 (p : Pat16) (s : State) : Host.Outcome State Fault Refusal := answer (p.setWidth 64) s

/-- Result v16, subject to R115. -/
def answerV16 (f : Fmt) (p : Pat16) (s : State) : Host.Outcome State Fault Refusal :=
  answer ((hwDispatch f.tag p s).1.setWidth 64) (hwDispatch f.tag p s).2

/-- Result f32, subject to R115. -/
def answerF32 (p : BitVec 32) (s : State) : Host.Outcome State Fault Refusal :=
  answer ((hwDispatch .s p s).1.setWidth 64) (hwDispatch .s p s).2

/-- Result f64, subject to R115. -/
def answerF64 (p : BitVec 64) (s : State) : Host.Outcome State Fault Refusal :=
  answer (hwDispatch .d p s).1 (hwDispatch .d p s).2

/-- Result bool: R[0]. -/
def answerBool (b : Bool) (s : State) : Host.Outcome State Fault Refusal := answer (if b then 1 else 0) s

/-- The class codes of R224. -/
def classCode : FClass → Word64
  | .nan => 0
  | .infinite => 1
  | .zero => 2
  | .subnormal => 3
  | .normal => 4

/-- Result class: R[2:0]. -/
def answerClass (c : FClass) (s : State) : Host.Outcome State Fault Refusal := answer (classCode c) s

/-- Result order: R[63:0]. -/
def answerOrder (r : Word64) (s : State) : Host.Outcome State Fault Refusal := answer r s

/-- Result ascii6: R[47:0]. -/
def answerAscii6 (r : Word64) (s : State) : Host.Outcome State Fault Refusal := answer r s

end Sys2Proof.Machine
end

