-- ==== Sys2Proof/Machine/Arith.lean ====
section
/-! DEFINITION. The arithmetic operations of 42_arith.md (R190 to R195). No operation here writes a flag or raises an exception. -/

namespace Sys2Proof.Machine

/-- ADD (R190). -/
def execAdd (f : Fmt) (s : State) : Host.Outcome State Fault Refusal :=
  answerV16 f (binop f f32Add (opA16 s) (opB16 s)) s

/-- SUB (R191). -/
def execSub (f : Fmt) (s : State) : Host.Outcome State Fault Refusal :=
  answerV16 f (binop f f32Sub (opA16 s) (opB16 s)) s

/-- MUL (R192). -/
def execMul (f : Fmt) (s : State) : Host.Outcome State Fault Refusal :=
  answerV16 f (binop f f32Mul (opA16 s) (opB16 s)) s

/-- DIV (R193). -/
def execDiv (f : Fmt) (s : State) : Host.Outcome State Fault Refusal :=
  answerV16 f (binop f f32Div (opA16 s) (opB16 s)) s

/-- REM (R194). -/
def execRem (f : Fmt) (s : State) : Host.Outcome State Fault Refusal :=
  answerV16 f (binop f f32Rem (opA16 s) (opB16 s)) s

/-- NEG (R195): the sign bit of every pattern inverted, nothing quieted. -/
def execNeg (f : Fmt) (s : State) : Host.Outcome State Fault Refusal :=
  answerV16 f (opA16 s ^^^ 0x8000#16) s

end Sys2Proof.Machine
end

