-- ==== Sys2Proof/Machine/Convert.lean ====
section
/-! DEFINITION. The conversion operations of 41_codec.md (R155 to R162). No operation here raises an exception (R300). -/

namespace Sys2Proof.Machine

/-- FROMBITS (R155). -/
def execFrombits (_f : Fmt) (s : State) : Host.Outcome State Fault Refusal := answerBits16 (opA16 s) s

/-- TOBITS (R156). -/
def execTobits (_f : Fmt) (s : State) : Host.Outcome State Fault Refusal := answerBits16 (opA16 s) s

/-- FROMF32 (R157). -/
def execFromf32 (f : Fmt) (s : State) : Host.Outcome State Fault Refusal := answerV16 f (narrowFromS f (opF32 s)) s

/-- FROMF64 (R158): one rounding from binary64. -/
def execFromf64 (f : Fmt) (s : State) : Host.Outcome State Fault Refusal := answerV16 f (narrowFromD f (opF64 s)) s

/-- TOF32 (R159). -/
def execTof32 (f : Fmt) (s : State) : Host.Outcome State Fault Refusal := answerF32 (widenToS f (opA16 s)) s

/-- TOF64 (R160). -/
def execTof64 (f : Fmt) (s : State) : Host.Outcome State Fault Refusal := answerF64 (widenToD f (opA16 s)) s

/-- The integer constructors' rounding (R161, R162): one rounding of the exact integer; 0 gives +0. -/
def fromInt (f : Fmt) (n : Int) : Pat16 :=
  if n = 0 then pack f.tag false 0 0 else rne f.tag (decide (n < 0)) n.natAbs 1

/-- FROMI64 (R161). -/
def execFromi64 (f : Fmt) (s : State) : Host.Outcome State Fault Refusal := answerV16 f (fromInt f (opI64 s)) s

/-- FROMU64 (R162). -/
def execFromu64 (f : Fmt) (s : State) : Host.Outcome State Fault Refusal := answerV16 f (fromInt f (opU64 s)) s

end Sys2Proof.Machine
end

