-- ==== Sys2Proof/Machine/Text.lean ====
section
/-! DEFINITION. The two renderings of 44_format.md: the raw-bits characters of FMTBITS (R260), and DEC_RENDER (R8), an uninterpreted
function restricted to the properties of R263. `restrictRender` keeps an answer that has the properties and replaces any other by an
exact decimal, so every function with the properties is itself a possible DEC_RENDER and no other function is one. -/

namespace Sys2Proof.Machine

/-- The lower-case hexadecimal digit of a nibble in ASCII (R260). -/
def hexDigit (d : Nat) : Byte := if d < 10 then BitVec.ofNat 8 (0x30 + d) else BitVec.ofNat 8 (0x61 + (d - 10))

/-- The six characters of the raw-bits rendering, in reading order: `0x` and four hexadecimal digits (R260). -/
def hexText (a : Pat16) : List Byte :=
  [0x30#8, 0x78#8, hexDigit (a.toNat / 0x1000 % 16), hexDigit (a.toNat / 0x100 % 16), hexDigit (a.toNat / 0x10 % 16),
    hexDigit (a.toNat % 16)]

/-- Characters packed into R, character `i` in bits `8i+7:8i` (R44, R260). -/
def packText : List Byte → Word64
  | [] => 0
  | c :: cs => c.setWidth 64 ||| (packText cs <<< 8)

/-! ### Decimal numbers (R263 (3)) -/

/-- A decimal number read from text: the sign, the digits before and after the point as one integer, how many of them stand after the
point, and the exponent. Its magnitude is `digits * 10 ^ (exp - frac)`. -/
structure Decimal where
  neg : Bool
  digits : Nat
  frac : Nat
  exp : Int
  deriving DecidableEq, Repr

/-- A decimal digit's character. -/
def isDigit (c : Byte) : Bool := decide (0x30 ≤ c.toNat) && decide (c.toNat ≤ 0x39)

/-- The digits at the front of a text, and the rest of it. -/
def spanDigits : List Byte → List Byte × List Byte
  | [] => ([], [])
  | c :: cs => if isDigit c then (c :: (spanDigits cs).1, (spanDigits cs).2) else ([], c :: cs)

/-- The number a sequence of digits denotes, most significant first. -/
def digitsValue (cs : List Byte) : Nat := cs.foldl (fun acc c => acc * 10 + (c.toNat - 0x30)) 0

/-- A character at the front of a text: whether it stands there, and the text behind it. -/
def dropChar (c : Byte) : List Byte → Bool × List Byte
  | [] => (false, [])
  | x :: xs => if x = c then (true, xs) else (false, x :: xs)

/-- A decimal number: an optional `-`, digits, an optional `.` and digits, and an optional exponent `e`, an optional `-` and digits
(R263 (3)). Each `digits` is one digit or more (log 18). -/
def parseDecimal (str : List Byte) : Option Decimal :=
  let sg := dropChar 0x2D#8 str
  let ip := spanDigits sg.2
  let dot := dropChar 0x2E#8 ip.2
  let fp := if dot.1 then spanDigits dot.2 else ([], ip.2)
  let ex := dropChar 0x65#8 fp.2
  let es := if ex.1 then dropChar 0x2D#8 ex.2 else (false, fp.2)
  let ed := if ex.1 then spanDigits es.2 else ([], fp.2)
  if ip.1 = [] ∨ (dot.1 ∧ fp.1 = []) ∨ (ex.1 ∧ ed.1 = []) ∨ ed.2 ≠ [] then none
  else
    let x : Int := if es.1 then -(digitsValue ed.1 : Int) else (digitsValue ed.1 : Int)
    some ⟨sg.1, digitsValue (ip.1 ++ fp.1), fp.1.length, x⟩

/-- The magnitude of a decimal number as a fraction: numerator. -/
def Decimal.num (d : Decimal) : Nat := d.digits * 10 ^ (d.exp - d.frac).toNat

/-- The magnitude of a decimal number as a fraction: denominator. -/
def Decimal.den (d : Decimal) : Nat := 10 ^ ((d.frac : Int) - d.exp).toNat

/-! ### The properties of R263, pattern by pattern -/

/-- R263 (2): non-empty, printable ASCII; and short enough that R can hold its length (R12, R63; log 14). -/
def textOk (str : List Byte) : Bool :=
  !str.isEmpty && str.all (fun c => decide (0x20 ≤ c.toNat) && decide (c.toNat ≤ 0x7E)) && decide (str.length < 2 ^ 64)

/-- The text reads back, rounded to nearest even, as a pattern with the value of `a` (R263 (3)). -/
def readsBack (f : Fmt) (a : Pat16) (str : List Byte) : Bool :=
  match parseDecimal str with
  | none => false
  | some d =>
    let p : Pat16 := rne f.tag d.neg d.num d.den
    decide (p = a) || (decide (classOf f.tag p = .zero) && decide (classOf f.tag a = .zero))

/-- R263 (2) and (3) for a finite pattern, with `-` before the text of -0. -/
def finiteTextOk (f : Fmt) (a : Pat16) (str : List Byte) : Bool :=
  textOk str && readsBack f a str && (decide (a ≠ 0x8000#16) || (dropChar 0x2D#8 str).1)

/-- R263 (2) and the first half of (4) for an infinity or a NaN: not a decimal number. -/
def specialTextOk (str : List Byte) : Bool := textOk str && (parseDecimal str).isNone

/-! ### An admissible text for every pattern -/

/-- Decimal digits of `n` put before `acc`, at most `fuel` of them. -/
def digitsAux : Nat → Nat → List Byte → List Byte
  | 0, _, acc => acc
  | fuel + 1, n, acc =>
    let acc' := BitVec.ofNat 8 (0x30 + n % 10) :: acc
    if n / 10 = 0 then acc' else digitsAux fuel (n / 10) acc'

/-- The decimal digits of `n`, most significant first; `0` for zero. -/
def natDigits (n : Nat) : List Byte := digitsAux (Nat.log2 n + 1) n []

/-- An exact decimal of a finite pattern: its value is `magUnits / 2^k`, that is `magUnits * 5^k` with exponent `-k`. -/
def exactText (f : Fmt) (a : Pat16) : List Byte :=
  (if (fields f.tag a).s then [0x2D#8] else []) ++ natDigits (magUnits f.tag a * 5 ^ unitScale f.tag)
    ++ [0x65#8, 0x2D#8] ++ natDigits (unitScale f.tag)

/-- Texts for the infinities and for NaN where the uninterpreted function gives none that R263 admits: `inf`, `-inf`, and three NaN
spellings, of which one differs from any two texts. -/
def infText : List Byte := [0x69#8, 0x6E#8, 0x66#8]
def negInfText : List Byte := [0x2D#8, 0x69#8, 0x6E#8, 0x66#8]
def nanText : List Byte := [0x4E#8, 0x61#8, 0x4E#8]
def nanText2 : List Byte := [0x6E#8, 0x61#8, 0x6E#8]
def nanText3 : List Byte := [0x4E#8, 0x41#8, 0x4E#8]

/-- The texts of +inf and -inf: the function's own if R263 (4) admits the pair. -/
def infTexts (raw : Fmt → Pat16 → List Byte) (f : Fmt) : List Byte × List Byte :=
  let p := raw f (pack f.tag false (emaxField f.tag) 0)
  let n := raw f (pack f.tag true (emaxField f.tag) 0)
  if specialTextOk p && specialTextOk n && decide (p ≠ n) then (p, n) else (infText, negInfText)

/-- The text of a NaN pattern: the function's own if R263 (4) admits it beside the texts of the infinities. -/
def nanTextFor (raw : Fmt → Pat16 → List Byte) (f : Fmt) (a : Pat16) : List Byte :=
  let p := (infTexts raw f).1
  let n := (infTexts raw f).2
  let r := raw f a
  if specialTextOk r && decide (r ≠ p) && decide (r ≠ n) then r
  else if nanText ≠ p ∧ nanText ≠ n then nanText
  else if nanText2 ≠ p ∧ nanText2 ≠ n then nanText2
  else nanText3

/-- A rendering function restricted to R263: unchanged where it has the properties, an admissible text where it has not. -/
def restrictRender (raw : Fmt → Pat16 → List Byte) (f : Fmt) (a : Pat16) : List Byte :=
  match classOf f.tag a with
  | .nan => nanTextFor raw f a
  | .infinite => if (fields f.tag a).s then (infTexts raw f).2 else (infTexts raw f).1
  | .zero | .subnormal | .normal => if finiteTextOk f a (raw f a) then raw f a else exactText f a

/-- `DEC_RENDER(T, a)` (R8, R263): the uninterpreted `Config.decRenderRaw` restricted to R263. -/
def decRender (f : Fmt) (a : Pat16) : List Byte := restrictRender Config.decRenderRaw f a

end Sys2Proof.Machine
end

