-- ==== Sys2Proof/Machine/Render.lean ====
section
/-! DEFINITION. The formatting operations of 44_format.md (R260 to R262). -/

namespace Sys2Proof.Machine

/-- FMTBITS (R260): the six characters of the raw-bits rendering, available whatever FEAT_STD is (R262). -/
def execFmtbits (_f : Fmt) (s : State) : Host.Outcome State Fault Refusal := answerAscii6 (packText (hexText (opA16 s))) s

/-- FMTDEC (R261): STR takes the rendering and R its length; IllegalOp while FEAT_STD = 0 (R262). -/
def execFmtdec (f : Fmt) (s : State) : Host.Outcome State Fault Refusal :=
  if s.featStd then answerStr (decRender f (opA16 s)) s else takeIllegalOp s

end Sys2Proof.Machine
end

