-- ==== Sys2Proof/Machine/Order.lean ====
section
/-! DEFINITION. The orders of 43_scalar.md: the IEEE relation of two patterns (R226), the total-order key (R233) and the minimum and
maximum helpers (R235). -/

namespace Sys2Proof.Machine

/-- The four answers of `REL_T` (R226). -/
inductive Rel where
  | unordered
  | less
  | equal
  | greater
  deriving DecidableEq, Repr

/-- `REL_T(a, b)` (R226): a NaN is unordered with everything; else by value, with +0 and -0 the same number and the infinities outside
every finite value (`signedUnits` gives an infinity a number outside the finite ones). -/
def rel (T : Tag) (a b : Pat16) : Rel :=
  if classOf T a = .nan ∨ classOf T b = .nan then .unordered
  else if signedUnits T a < signedUnits T b then .less
  else if signedUnits T a = signedUnits T b then .equal
  else .greater

/-- `TKEY_T(x)` (R233). -/
def tkey (T : Tag) (x : Pat16) : Nat :=
  let f := fields T x
  if classOf T x = .nan then 0x10000 + f.m * 2 + f.s.toNat
  else if f.s then 0x7FFF - x.toNat % 2 ^ 15
  else 0x8000 + x.toNat % 2 ^ 15

/-- The order code of TOTALCMP (R63, R234): minus one, zero or one in 64 bits. -/
def orderCode (ka kb : Nat) : Word64 :=
  if ka < kb then 0xFFFFFFFFFFFFFFFF#64 else if ka = kb then 0 else 1

/-- `LO_T(a, b)` (R235). -/
def keyLo (T : Tag) (a b : Pat16) : Pat16 := if tkey T a < tkey T b then a else b

/-- `HI_T(a, b)` (R235). -/
def keyHi (T : Tag) (a b : Pat16) : Pat16 := if tkey T a < tkey T b then b else a

/-- `MINMAX_T` for MIN and MAX (R235): a NaN operand loses to a number; two NaNs give the first, quieted. -/
def ignoreNaN (T : Tag) (pick : Pat16 → Pat16 → Pat16) (a b : Pat16) : Pat16 :=
  if classOf T a = .nan ∧ classOf T b = .nan then setQuiet T a
  else if classOf T a = .nan then b
  else if classOf T b = .nan then a
  else pick a b

/-- `MINMAX_T` for MINIMUM and MAXIMUM (R235): a NaN operand wins, quieted, the first before the second. -/
def propagateNaN (T : Tag) (pick : Pat16 → Pat16 → Pat16) (a b : Pat16) : Pat16 :=
  if classOf T a = .nan then setQuiet T a
  else if classOf T b = .nan then setQuiet T b
  else pick a b

end Sys2Proof.Machine
end

