-- ==== Sys2Proof/Machine/Scalar.lean ====
section
/-! DEFINITION. The predicates, comparisons, total order, minimum and maximum of 43_scalar.md (R220 to R239). -/

namespace Sys2Proof.Machine

/-- ISNAN (R220). -/
def execIsnan (f : Fmt) (s : State) : Host.Outcome State Fault Refusal :=
  answerBool (decide (classOf f.tag (opA16 s) = .nan)) s

/-- ISINF (R221). -/
def execIsinf (f : Fmt) (s : State) : Host.Outcome State Fault Refusal :=
  answerBool (decide (classOf f.tag (opA16 s) = .infinite)) s

/-- ISFINITE (R222). -/
def execIsfinite (f : Fmt) (s : State) : Host.Outcome State Fault Refusal :=
  answerBool (decide (classOf f.tag (opA16 s) = .zero ∨ classOf f.tag (opA16 s) = .subnormal
    ∨ classOf f.tag (opA16 s) = .normal)) s

/-- ISSIGNNEG (R223): the raw sign bit, NaNs included. -/
def execIssignneg (_f : Fmt) (s : State) : Host.Outcome State Fault Refusal :=
  answerBool ((opA16 s).getLsbD 15) s

/-- CLASSIFY (R224). -/
def execClassify (f : Fmt) (s : State) : Host.Outcome State Fault Refusal := answerClass (classOf f.tag (opA16 s)) s

/-- EQ (R227). -/
def execEq (f : Fmt) (s : State) : Host.Outcome State Fault Refusal :=
  answerBool (decide (rel f.tag (opA16 s) (opB16 s) = .equal)) s

/-- NE (R228): UNORDERED gives 1. -/
def execNe (f : Fmt) (s : State) : Host.Outcome State Fault Refusal :=
  answerBool (decide (rel f.tag (opA16 s) (opB16 s) ≠ .equal)) s

/-- LT (R229). -/
def execLt (f : Fmt) (s : State) : Host.Outcome State Fault Refusal :=
  answerBool (decide (rel f.tag (opA16 s) (opB16 s) = .less)) s

/-- LE (R230). -/
def execLe (f : Fmt) (s : State) : Host.Outcome State Fault Refusal :=
  answerBool (decide (rel f.tag (opA16 s) (opB16 s) = .less ∨ rel f.tag (opA16 s) (opB16 s) = .equal)) s

/-- GT (R231). -/
def execGt (f : Fmt) (s : State) : Host.Outcome State Fault Refusal :=
  answerBool (decide (rel f.tag (opA16 s) (opB16 s) = .greater)) s

/-- GE (R232). -/
def execGe (f : Fmt) (s : State) : Host.Outcome State Fault Refusal :=
  answerBool (decide (rel f.tag (opA16 s) (opB16 s) = .greater ∨ rel f.tag (opA16 s) (opB16 s) = .equal)) s

/-- TOTALCMP (R234). -/
def execTotalcmp (f : Fmt) (s : State) : Host.Outcome State Fault Refusal :=
  answerOrder (orderCode (tkey f.tag (opA16 s)) (tkey f.tag (opB16 s))) s

/-- MIN (R236). -/
def execMin (f : Fmt) (s : State) : Host.Outcome State Fault Refusal :=
  answerV16 f (ignoreNaN f.tag (keyLo f.tag) (opA16 s) (opB16 s)) s

/-- MAX (R237). -/
def execMax (f : Fmt) (s : State) : Host.Outcome State Fault Refusal :=
  answerV16 f (ignoreNaN f.tag (keyHi f.tag) (opA16 s) (opB16 s)) s

/-- MINIMUM (R238). -/
def execMinimum (f : Fmt) (s : State) : Host.Outcome State Fault Refusal :=
  answerV16 f (propagateNaN f.tag (keyLo f.tag) (opA16 s) (opB16 s)) s

/-- MAXIMUM (R239). -/
def execMaximum (f : Fmt) (s : State) : Host.Outcome State Fault Refusal :=
  answerV16 f (propagateNaN f.tag (keyHi f.tag) (opA16 s) (opB16 s)) s

end Sys2Proof.Machine
end

