-- ==== Sys2Proof/Machine/Dispatch.lean ====
section
/-! DEFINITION. One arm per operation of the opcode map (R64), each a direct call of the operation's meaning. -/

namespace Sys2Proof.Machine

def exec (i : Instr) (s : State) : Host.Outcome State Fault Refusal :=
  match i with
  | .frombits f => Sys2Proof.Machine.execFrombits f s
  | .tobits f => Sys2Proof.Machine.execTobits f s
  | .fromf32 f => Sys2Proof.Machine.execFromf32 f s
  | .fromf64 f => Sys2Proof.Machine.execFromf64 f s
  | .tof32 f => Sys2Proof.Machine.execTof32 f s
  | .tof64 f => Sys2Proof.Machine.execTof64 f s
  | .fromi64 f => Sys2Proof.Machine.execFromi64 f s
  | .fromu64 f => Sys2Proof.Machine.execFromu64 f s
  | .isnan f => Sys2Proof.Machine.execIsnan f s
  | .isinf f => Sys2Proof.Machine.execIsinf f s
  | .isfinite f => Sys2Proof.Machine.execIsfinite f s
  | .issignneg f => Sys2Proof.Machine.execIssignneg f s
  | .classify f => Sys2Proof.Machine.execClassify f s
  | .add f => Sys2Proof.Machine.execAdd f s
  | .sub f => Sys2Proof.Machine.execSub f s
  | .mul f => Sys2Proof.Machine.execMul f s
  | .div f => Sys2Proof.Machine.execDiv f s
  | .rem f => Sys2Proof.Machine.execRem f s
  | .neg f => Sys2Proof.Machine.execNeg f s
  | .eq f => Sys2Proof.Machine.execEq f s
  | .ne f => Sys2Proof.Machine.execNe f s
  | .lt f => Sys2Proof.Machine.execLt f s
  | .le f => Sys2Proof.Machine.execLe f s
  | .gt f => Sys2Proof.Machine.execGt f s
  | .ge f => Sys2Proof.Machine.execGe f s
  | .totalcmp f => Sys2Proof.Machine.execTotalcmp f s
  | .min f => Sys2Proof.Machine.execMin f s
  | .max f => Sys2Proof.Machine.execMax f s
  | .minimum f => Sys2Proof.Machine.execMinimum f s
  | .maximum f => Sys2Proof.Machine.execMaximum f s
  | .fmtbits f => Sys2Proof.Machine.execFmtbits f s
  | .fmtdec f => Sys2Proof.Machine.execFmtdec f s

end Sys2Proof.Machine
end

