-- ==== Sys2Proof/Machine/Step.lean ====
section
/-! DEFINITION. One step of the machine: a raised reset is carried out (R330); else the next request is put on the ports, decoded (R68)
and served in one indivisible step (R47); with neither, nothing happens to the unit (R306). -/

namespace Sys2Proof.Machine

/-- One step. -/
def step (s : State) : Host.Outcome State Fault Refusal :=
  if s.resetPending then .next (takeReset s)
  else
    match presentRequest s with
    | none => .next s
    | some t =>
      match decode t.port.cmd with
      | .ok i => exec i t
      | .error _ => takeIllegalOp t

/-- The state with the command word `w` issued as a request (operand ports 0) that the very next step serves: no reset is pending, the
request stands first among the waiting ones, and the schedule serves its requester next (log 12). -/
def State.withFetchWord (s : State) (nbits w : Nat) : State :=
  { s with
    resetPending := false
    requests := ⟨0, BitVec.ofNat 8 (w % 2 ^ nbits), 0, 0⟩ :: s.requests
    schedule := 0 :: s.schedule }

end Sys2Proof.Machine
end

