-- ==== Sys2Proof/Machine/Value.lean ====
section
/-! DEFINITION. The exact value of a pattern as a rational number, by the closed formula of R107, and what it means to be the nearest
representable value with ties to even (R112). Claims are stated in these terms; no step uses them. -/

namespace Sys2Proof.Machine

/-- The sign factor `(-1)^s`. -/
def signFactor (s : Bool) : ℚ := if s then -1 else 1

/-- `value_T(x)` of a finite pattern (R107); an infinity and a NaN have no rational value and get 0 here. -/
def value {n : Nat} (T : Tag) (x : BitVec n) : ℚ :=
  let f := fields T x
  match classOf T x with
  | .subnormal => signFactor f.s * f.m * (2 : ℚ) ^ ((1 - bias T : ℤ) - mw T)
  | .normal => signFactor f.s * (2 ^ mw T + f.m) * (2 : ℚ) ^ ((f.e : ℤ) - bias T - mw T)
  | .zero | .infinite | .nan => 0

/-- Zero, subnormal or normal (R106). -/
def IsFinite {n : Nat} (T : Tag) (x : BitVec n) : Prop :=
  classOf T x = .zero ∨ classOf T x = .subnormal ∨ classOf T x = .normal

/-- The value of a pattern that is not NaN, with -inf below and +inf above every finite value (R226). -/
def extValue {n : Nat} (T : Tag) (x : BitVec n) : WithBot (WithTop ℚ) :=
  if classOf T x = .infinite then (if (fields T x).s then ⊥ else ((⊤ : WithTop ℚ) : WithBot (WithTop ℚ)))
  else ((value T x : WithTop ℚ) : WithBot (WithTop ℚ))

/-- The overflow threshold `2^emax_T * (2 - 2^-p_T)` (R112). -/
def overflowAt (T : Tag) : ℚ :=
  (2 : ℚ) ^ ((emaxField T : ℤ) - 1 - bias T) * (2 - (2 : ℚ) ^ (-(prec T : ℤ)))

/-- `x` is the rounding of the magnitude `v` with sign `s` to format T, to nearest with ties to even (R112): the infinity of sign `s` at
or above the overflow threshold; below it a finite pattern of sign `s` whose magnitude no finite pattern's is nearer than, and whose
last significand bit is 0 where another magnitude is as near. -/
def NearestEven {n : Nat} (T : Tag) (s : Bool) (v : ℚ) (x : BitVec n) : Prop :=
  if overflowAt T ≤ v then x = pack T s (emaxField T) 0
  else
    IsFinite T x ∧ (fields T x).s = s ∧
      ∀ y : BitVec n, IsFinite T y →
        abs (v - |value T x|) ≤ abs (v - |value T y|) ∧
          (|value T x| ≠ |value T y| → abs (v - |value T x|) = abs (v - |value T y|) → (fields T x).m % 2 = 0)

end Sys2Proof.Machine
end

