-- ==== Sys2Proof/WellFormed.lean ====
section
/-! DEFINITION. Which instructions a unit accepts. An instruction's only field is its format, and F has no reserved value (R60), so
the one check is availability: FMTDEC exists only in a unit whose FEAT_STD is 1 (R7, R262). -/

namespace Sys2Proof

/-- FMTDEC is available only when FEAT_STD = 1 (R262); every other operation is available in both settings. -/
def Instr.available (featStd : Bool) : Instr → Bool
  | .fmtdec _ => featStd
  | .frombits _ | .tobits _ | .fromf32 _ | .fromf64 _ | .tof32 _ | .tof64 _ | .fromi64 _ | .fromu64 _
  | .isnan _ | .isinf _ | .isfinite _ | .issignneg _ | .classify _
  | .add _ | .sub _ | .mul _ | .div _ | .rem _ | .neg _
  | .eq _ | .ne _ | .lt _ | .le _ | .gt _ | .ge _ | .totalcmp _
  | .min _ | .max _ | .minimum _ | .maximum _ | .fmtbits _ => true

/-- An instruction is well-formed for a unit when it is available there. -/
def Instr.wellFormed (featStd : Bool) (i : Instr) : Bool := i.available featStd

end Sys2Proof
end

