-- ==== Sys2Proof/Safety.lean ====
section
/-! DEFINITION. The terms claims are stated in: a fault-free run, the legal responses of each operation (R63, R301), the machine's
invariant, and the results the rules give each operation, told by the patterns' bits and by exact rational values and not by the
functions the meanings use. -/

namespace Sys2Proof.Machine

/-! ### Runs -/

/-- No IllegalOp has been recorded (R301): what a claim about a run asks before it uses the run's results. -/
def State.faultFree (s : State) : Prop := s.fault = none

/-- The reserved OP values of R66. -/
def ReservedOp (op : Nat) : Prop :=
  (0x0D ≤ op ∧ op ≤ 0x0F) ∨ op = 0x16 ∨ op = 0x17 ∨ op = 0x1F ∨ (0x24 ≤ op ∧ op ≤ 0x27) ∨ (0x2A ≤ op ∧ op ≤ 0x7F)

/-- R301's two conditions: a reserved OP, or OP 0x29 while FEAT_STD = 0. -/
def IllegalCommand (featStd : Bool) (cmd : Cmd) : Prop :=
  ReservedOp (cmd.toNat % 0x80) ∨ (cmd.toNat % 0x80 = 0x29 ∧ featStd = false)

/-- The state after the request on the ports got the response R, ERR = 0, STR, and nothing else changed. -/
def State.answered (s : State) (r : Word64) (str : List Byte) : State :=
  { s with out := some ⟨r, 0#1, str⟩, delivered := s.delivered ++ [⟨s.port, ⟨r, 0#1, str⟩⟩] }

/-- The state after the request on the ports raised IllegalOp (R301): R = 0, ERR = 1, STR empty, the first such command recorded. -/
def State.illegal (s : State) : State :=
  { s with
    out := some ⟨0, 1#1, []⟩
    delivered := s.delivered ++ [⟨s.port, ⟨0, 1#1, []⟩⟩]
    fault := some (s.fault.getD (.illegalOp s.port.cmd)) }

/-- R115 for the portable result `P` of format T: the operation answers `P`, or on the hardware-intrinsic path, when `P` is a NaN, `P`'s
sign and exponent with one drawn non-zero mantissa. Nothing else changes. -/
def Dispatched {n : Nat} (T : Tag) (P : BitVec n) (i : Instr) (s : State) : Prop :=
  if s.cap = 1#1 ∧ classOf T P = .nan then
    ∃ m, 0 < m ∧ m < 2 ^ mw T ∧ exec i s =
      .next { s.answered ((pack T (fields T P).s (emaxField T) m : BitVec n).setWidth 64) [] with draws := s.draws + 1 }
  else exec i s = .next (s.answered (P.setWidth 64) [])

/-- The two command words of an operation (R60, R64): `h` for binary16 and `bf` for bfloat16. -/
def Encoded (op : Fmt → Instr) (h bf : Cmd) : Prop := decode h = .ok (op .h) ∧ decode bf = .ok (op .bf)

/-! ### Result kinds (R63, R64) -/

/-- The result kinds of R63. -/
inductive ResultKind where
  | v16
  | f32
  | f64
  | bool
  | cls
  | order
  | ascii6
  | strlen
  deriving DecidableEq, Repr

/-- The result column of R64. -/
def resultKind : Instr → ResultKind
  | .frombits _ | .tobits _ | .fromf32 _ | .fromf64 _ | .fromi64 _ | .fromu64 _ => .v16
  | .tof32 _ => .f32
  | .tof64 _ => .f64
  | .isnan _ | .isinf _ | .isfinite _ | .issignneg _ => .bool
  | .classify _ => .cls
  | .add _ | .sub _ | .mul _ | .div _ | .rem _ | .neg _ => .v16
  | .eq _ | .ne _ | .lt _ | .le _ | .gt _ | .ge _ => .bool
  | .totalcmp _ => .order
  | .min _ | .max _ | .minimum _ | .maximum _ => .v16
  | .fmtbits _ => .ascii6
  | .fmtdec _ => .strlen

/-- How many low bits of A an operation reads (the A column of R64 with R62). -/
def bitsOfA : Instr → Nat
  | .fromf32 _ => 32
  | .fromf64 _ | .fromi64 _ | .fromu64 _ => 64
  | .frombits _ | .tobits _ | .tof32 _ | .tof64 _ | .isnan _ | .isinf _ | .isfinite _ | .issignneg _ | .classify _
  | .add _ | .sub _ | .mul _ | .div _ | .rem _ | .neg _ | .eq _ | .ne _ | .lt _ | .le _ | .gt _ | .ge _ | .totalcmp _
  | .min _ | .max _ | .minimum _ | .maximum _ | .fmtbits _ | .fmtdec _ => 16

/-- How many low bits of B an operation reads (the B column of R64): 0 where the port is marked `-`. -/
def bitsOfB : Instr → Nat
  | .add _ | .sub _ | .mul _ | .div _ | .rem _ | .eq _ | .ne _ | .lt _ | .le _ | .gt _ | .ge _ | .totalcmp _
  | .min _ | .max _ | .minimum _ | .maximum _ => 16
  | .frombits _ | .tobits _ | .fromf32 _ | .fromf64 _ | .tof32 _ | .tof64 _ | .fromi64 _ | .fromu64 _
  | .isnan _ | .isinf _ | .isfinite _ | .issignneg _ | .classify _ | .neg _ | .fmtbits _ | .fmtdec _ => 0

/-- The format of a result to which R115 applies: kind v16, f32 or f64, FROMBITS and TOBITS excepted. -/
def dispatchTag : Instr → Option Tag
  | .fromf32 f | .fromf64 f | .fromi64 f | .fromu64 f | .add f | .sub f | .mul f | .div f | .rem f | .neg f
  | .min f | .max f | .minimum f | .maximum f => some f.tag
  | .tof32 _ => some .s
  | .tof64 _ => some .d
  | .frombits _ | .tobits _ | .isnan _ | .isinf _ | .isfinite _ | .issignneg _ | .classify _ | .eq _ | .ne _ | .lt _ | .le _
  | .gt _ | .ge _ | .totalcmp _ | .fmtbits _ | .fmtdec _ => none

/-- A printable ASCII character (R263 (2)). -/
def Printable (c : Byte) : Prop := 0x20 ≤ c.toNat ∧ c.toNat ≤ 0x7E

/-- What R and STR of a legal response hold for each result kind (R63): the bits above the kind's width are 0, a class code is at most 4
(R224), an order is -1, 0 or 1, and STR is empty except for FMTDEC, whose R is the byte count of a printable STR (R261, R263). -/
def KindOk : ResultKind → Word64 → List Byte → Prop
  | .v16, r, str => r.toNat < 2 ^ 16 ∧ str = []
  | .f32, r, str => r.toNat < 2 ^ 32 ∧ str = []
  | .f64, _, str => str = []
  | .bool, r, str => r.toNat ≤ 1 ∧ str = []
  | .cls, r, str => r.toNat ≤ 4 ∧ str = []
  | .order, r, str => (r = 0xFFFFFFFFFFFFFFFF#64 ∨ r = 0 ∨ r = 1) ∧ str = []
  | .ascii6, r, str => r.toNat < 2 ^ 48 ∧ str = []
  | .strlen, r, str => r.toNat = str.length ∧ str ≠ [] ∧ ∀ c ∈ str, Printable c

/-- A delivered response is one its request may get: R = 0, ERR = 1 and STR empty for an illegal command (R301); ERR = 0 and the
operation's result kind for a legal one (R63). -/
def DeliveryOk (featStd : Bool) (d : Delivery) : Prop :=
  match decode d.request.cmd with
  | .error _ => d.response = ⟨0, 1#1, []⟩
  | .ok i =>
    if i.available featStd then d.response.err = 0#1 ∧ KindOk (resultKind i) d.response.r d.response.str
    else d.response = ⟨0, 1#1, []⟩

/-- The machine's invariant: every delivered response is one its request may get; R, ERR and STR, once they hold a value, are the last
delivered response; and the recorded fault is the first delivered IllegalOp. -/
def State.Inv (s : State) : Prop :=
  (∀ d ∈ s.delivered, DeliveryOk s.featStd d) ∧
  (∀ o, s.out = some o → ∃ d, s.delivered.getLast? = some d ∧ d.response = o) ∧
  s.fault = (s.delivered.find? (fun d => decide (d.response.err = 1#1))).map (fun d => .illegalOp d.request.cmd)

/-! ### Patterns by their bits -/

/-- The exponent and mantissa of a 16-bit pattern as one number. -/
def magBits (a : Pat16) : Nat := a.toNat % 0x8000

/-- The magnitude bits of an infinity: 0x7C00 (binary16), 0x7F80 (bfloat16). -/
def infBits : Fmt → Nat
  | .h => 0x7C00
  | .bf => 0x7F80

/-- The magnitude bits of the smallest normal: 0x0400 (binary16), 0x0080 (bfloat16) (R104). -/
def normalBits : Fmt → Nat
  | .h => 0x0400
  | .bf => 0x0080

/-- The sign bit of a 16-bit pattern. -/
def sign16 (a : Pat16) : Bool := decide (0x8000 ≤ a.toNat)

/-- The mask of the quiet bit, `QBIT_T` (R108). -/
def quietMask : Fmt → Pat16
  | .h => 0x0200#16
  | .bf => 0x0040#16

/-- The canonical quiet NaN, `QNAN_T` (R108). -/
def canonicalNaN : Fmt → Pat16
  | .h => 0x7E00#16
  | .bf => 0x7FC0#16

/-- The infinity of a sign. -/
def infPattern (f : Fmt) (s : Bool) : Pat16 := BitVec.ofNat 16 (infBits f + if s then 0x8000 else 0)

/-- The zero of a sign. -/
def zeroPattern (s : Bool) : Pat16 := if s then 0x8000#16 else 0#16

/-- A NaN, by its bits. -/
abbrev IsNaN16 (f : Fmt) (a : Pat16) : Prop := infBits f < magBits a

/-- An infinity, by its bits. -/
abbrev IsInf16 (f : Fmt) (a : Pat16) : Prop := magBits a = infBits f

/-- A zero, by its bits. -/
abbrev IsZero16 (a : Pat16) : Prop := magBits a = 0

/-! ### Results the rules give -/

/-- The NaN policy of R187 before a result for operands that are numbers. -/
def nanFirst (f : Fmt) (a b P : Pat16) (numbers : Prop) : Prop :=
  if IsNaN16 f a then P = a ||| quietMask f
  else if IsNaN16 f b then P = b ||| quietMask f
  else numbers

/-- Demotion (R180, R188): the exact magnitude `v` of sign `s` rounded once to binary32, and that narrowed (R113). -/
def Demoted (f : Fmt) (s : Bool) (v : ℚ) (P : Pat16) : Prop :=
  ∃ z : BitVec 32, NearestEven .s s v z ∧ P = narrowExact .s f.tag z

/-- R182 on operands that are not NaN. -/
def SumResult (f : Fmt) (a b P : Pat16) : Prop :=
  if IsInf16 f a then (if IsInf16 f b then (if sign16 a = sign16 b then P = a else P = canonicalNaN f) else P = a)
  else if IsInf16 f b then P = b
  else if value f.tag a + value f.tag b = 0 then
    (if IsZero16 a ∧ IsZero16 b ∧ sign16 a = sign16 b then P = a else P = zeroPattern false)
  else Demoted f (decide (value f.tag a + value f.tag b < 0)) |value f.tag a + value f.tag b| P

/-- R184 on operands that are not NaN. -/
def ProductResult (f : Fmt) (a b P : Pat16) : Prop :=
  if (IsInf16 f a ∧ IsZero16 b) ∨ (IsZero16 a ∧ IsInf16 f b) then P = canonicalNaN f
  else if IsInf16 f a ∨ IsInf16 f b then P = infPattern f (xor (sign16 a) (sign16 b))
  else Demoted f (xor (sign16 a) (sign16 b)) |value f.tag a * value f.tag b| P

/-- R185 on operands that are not NaN. -/
def QuotientResult (f : Fmt) (a b P : Pat16) : Prop :=
  if (IsZero16 a ∧ IsZero16 b) ∨ (IsInf16 f a ∧ IsInf16 f b) then P = canonicalNaN f
  else if IsInf16 f a then P = infPattern f (xor (sign16 a) (sign16 b))
  else if IsInf16 f b then P = zeroPattern (xor (sign16 a) (sign16 b))
  else if IsZero16 b then P = infPattern f (xor (sign16 a) (sign16 b))
  else Demoted f (xor (sign16 a) (sign16 b)) |value f.tag a / value f.tag b| P

/-- The integer part of a rational, `trunc(q)` of R12. -/
def truncQ (q : ℚ) : ℤ := if 0 ≤ q then ⌊q⌋ else ⌈q⌉

/-- R186 on operands that are not NaN: the truncated remainder, which no rounding changes, with the sign of `a`. -/
def RemainderResult (f : Fmt) (a b P : Pat16) : Prop :=
  if IsInf16 f a ∨ IsZero16 b then P = canonicalNaN f
  else if IsInf16 f b then P = a
  else magBits P < infBits f ∧ sign16 P = sign16 a ∧
    value f.tag P = value f.tag a - value f.tag b * truncQ (value f.tag a / value f.tag b)

/-- The total order of R233 in words: numbers by value with -0 directly below +0, every NaN above every number, NaNs by mantissa and
then by sign. -/
def TotalBelow (f : Fmt) (a b : Pat16) : Prop :=
  (¬ IsNaN16 f a ∧ IsNaN16 f b) ∨
  (IsNaN16 f a ∧ IsNaN16 f b ∧
    (magBits a < magBits b ∨ (magBits a = magBits b ∧ sign16 a = false ∧ sign16 b = true))) ∨
  (¬ IsNaN16 f a ∧ ¬ IsNaN16 f b ∧
    (extValue f.tag a < extValue f.tag b ∨ (IsZero16 a ∧ IsZero16 b ∧ sign16 a = true ∧ sign16 b = false)))

/-- `y` is the widening of `x` to the format W (R140): the value and the sign of a finite `x`, an infinity of the same sign, or a NaN
with `x`'s sign and its mantissa left-aligned. -/
def IsWidening {n : Nat} (T W : Tag) (x : Pat16) (y : BitVec n) : Prop :=
  match classOf T x with
  | .nan => y = pack W (fields T x).s (emaxField W) ((fields T x).m * 2 ^ (mw W - mw T))
  | .infinite => y = pack W (fields T x).s (emaxField W) 0
  | .zero | .subnormal | .normal => IsFinite W y ∧ (fields W y).s = (fields T x).s ∧ value W y = value T x

/-! ### The rendering (R263) -/

/-- The properties of R263 that every DEC_RENDER has. -/
structure RenderOk (R : Fmt → Pat16 → List Byte) : Prop where
  /-- (2): non-empty, printable, and with a length R can hold (log 14). -/
  text : ∀ f a, R f a ≠ [] ∧ (∀ c ∈ R f a, Printable c) ∧ (R f a).length < 2 ^ 64
  /-- (3): a finite pattern's text is a decimal number that rounds back to a pattern of the same value. -/
  number : ∀ f a, IsFinite f.tag a → ∃ d, parseDecimal (R f a) = some d ∧
    IsFinite f.tag (rne f.tag d.neg d.num d.den : Pat16) ∧ value f.tag (rne f.tag d.neg d.num d.den : Pat16) = value f.tag a
  /-- (3): the text of -0 begins with `-`. -/
  negZero : ∀ f, (R f 0x8000#16).head? = some 0x2D#8
  /-- (4): the texts of the infinities and of a NaN are not decimal numbers. -/
  special : ∀ f a, ¬ IsFinite f.tag a → parseDecimal (R f a) = none
  /-- (4): and differ from each other. -/
  distinct : ∀ f, R f (infPattern f false) ≠ R f (infPattern f true) ∧
    ∀ a, classOf f.tag a = .nan → R f a ≠ R f (infPattern f false) ∧ R f a ≠ R f (infPattern f true)

end Sys2Proof.Machine
end

