-- ==== Sys2Proof/Certificates/Slice0/Obligations.lean ====
section
/-! DEFINITION. The statements for the provers. Each docstring names the rule it formalises. A statement about a result gives the whole
next state: `State.answered`, `State.illegal` and `Dispatched` change the response and the record of deliveries and nothing else, so each
of them is also the instruction's frame. -/

open Sys2Proof Sys2Proof.Machine

/-! ### Reset and the machine's frame -/

/-- R31, R332: right after reset CAP holds 0, the value of an unverifiable capability, and no response exists. That `State.reset` is the
reset with an unverifiable capability (log 2), that FEAT_STD is on (log 3), and that the ports are 0 and the hosts' side is empty (log 13)
are the model's choices. The open choices of a run (`schedule`, `draws`) and the model's fault record are left out. -/
def Obligations.ResetState : Prop :=
  State.reset.hwAccelCap = none ∧ State.reset.cap = sampledCap none ∧ State.reset.cap = 0#1 ∧ State.reset.featStd = true ∧
    hostRead State.reset = none ∧ State.reset.port = ⟨0, 0#8, 0#64, 0#64⟩ ∧ State.reset.requests = [] ∧
    State.reset.delivered = [] ∧ State.reset.resetPending = false

/-- R330: a raised reset samples `hw_accel_cap` into CAP, or 0 when the capability cannot be verified, gives the requests in progress no
response, leaves no response to read, and lets the unit accept requests again; nothing else changes. -/
def Obligations.ResetSequence : Prop :=
  ∀ (s : State) (c : Option Bool), ∃ t, step (hostReset c s) = .next t ∧
    t.cap = (match c with | some b => BitVec.ofBool b | none => 0#1) ∧
    t.resetPending = false ∧ t.requests = [] ∧ hostRead t = none ∧
    (∀ q, hostIssue q (hostReset c s) = hostReset c s) ∧
    (∀ q, (hostIssue q t).requests = [q]) ∧
    t = { s with cap := t.cap, hwAccelCap := c, resetPending := false, requests := [], out := none }

/-- R331, R21, R30: no step changes CAP but a reset, and no step changes FEAT_STD or the `hw_accel_cap` input or clears the recorded
fault. -/
def Obligations.CapAndConfigurationConstant : Prop :=
  ∀ (s t : State), step s = .next t →
    t.featStd = s.featStd ∧ t.hwAccelCap = s.hwAccelCap ∧
    (s.resetPending = false → t.cap = s.cap ∧ t.resetPending = false) ∧
    (s.resetPending = true → t.cap = sampledCap s.hwAccelCap) ∧
    (∀ x, s.fault = some x → t.fault = some x)

/-- R20, R23, R28: an operation gives exactly one response and changes nothing of the unit; beside the response only the draw counter
moves, by at most one and on the hardware path only, and the fault record, for an illegal FMTDEC only. -/
def Obligations.OperationFrame : Prop :=
  ∀ (i : Instr) (s t : State), exec i s = .next t →
    ∃ resp : Response, ∃ k : Nat,
      t = { s with out := some resp, delivered := s.delivered ++ [⟨s.port, resp⟩], draws := s.draws + k, fault := t.fault } ∧
      k ≤ 1 ∧ (s.cap = 0#1 → k = 0) ∧ (t.fault ≠ s.fault → ∃ f, i = .fmtdec f ∧ s.featStd = false)

/-- R336: every step answers a next state: nothing stops the machine. -/
def Obligations.EveryStepAnswers : Prop :=
  ∀ s : State, ∃ t, step s = .next t

/-- R22, R310, R336: with no reset raised, as many steps as requests are waiting answer them all, each exactly once, and each requester
gets its responses in the order of its requests, whatever the service order. -/
def Obligations.EveryRequestAnsweredInOrder : Prop :=
  ∀ s : State, s.resetPending = false →
    ∃ t ds, Sys2Proof.core.run s.requests.length s = .next t ∧ t.requests = [] ∧ t.delivered = s.delivered ++ ds ∧
      ds.length = s.requests.length ∧
      ∀ who, (ds.map Delivery.request).filter (fun q => q.requester = who) = s.requests.filter (fun q => q.requester = who)

/-! ### Decoding and the step -/

/-- R60, R64: decoding the command word of any instruction gives it back. -/
def Obligations.DecodeEncode : Prop :=
  ∀ i : Instr, decode (encode i) = .ok i ∧ decodeTableWord 8 (encode i).toNat = some i

/-- R66, R67: a word that decodes is the encoding of its instruction, and a command is illegal exactly when its OP is reserved or it is
FMTDEC with FEAT_STD = 0. The clause that `decode` rejects exactly the reserved OP values is the model's choice (log 17): R68 raises
IllegalOp for OP 0x29 with FEAT_STD = 0 during decoding too, where here FMTDEC always decodes and its meaning checks FEAT_STD. -/
def Obligations.DecodeRejectsExactlyReserved : Prop :=
  ∀ cmd : Cmd,
    (∀ i, decode cmd = .ok i → encode i = cmd) ∧
    ((∃ e, decode cmd = .error e) ↔ ReservedOp (cmd.toNat % 0x80)) ∧
    (∀ featStd, commandLegal featStd cmd = false ↔ IllegalCommand featStd cmd)

/-- R60, R64: some command words written out from the opcode map. -/
def Obligations.DecodedWords : Prop :=
  decode 0x00#8 = .ok (.frombits .h) ∧ decode 0x82#8 = .ok (.fromf32 .bf) ∧ decode 0x05#8 = .ok (.tof64 .h) ∧
  decode 0x8C#8 = .ok (.classify .bf) ∧ decode 0x10#8 = .ok (.add .h) ∧ decode 0x94#8 = .ok (.rem .bf) ∧
  decode 0x1A#8 = .ok (.lt .h) ∧ decode 0x9E#8 = .ok (.totalcmp .bf) ∧ decode 0x23#8 = .ok (.maximum .h) ∧
  decode 0xA9#8 = .ok (.fmtdec .bf) ∧ decode 0x16#8 = .error (.reservedOp 0x16#7)

/-- A step serves one request (R22, R25, R47): with no reset raised and a request presented, the step is `exec` of the decoded
instruction with the request on the ports and off the waiting list. -/
def Obligations.StepRunsDecodedInstruction : Prop :=
  ∀ (s t : State) (i : Instr), s.resetPending = false → presentRequest s = some t → decode t.port.cmd = .ok i →
    step s = exec i t

/-- R25, R306, R310: with no reset raised a step leaves the state as it is when no request waits; else it presents one waiting request,
before which no request of the same requester waits, and the rest of the waiting list keeps its order. R310 leaves the order among
requesters open: that it comes from the list `schedule`, each served request using up one number, and that a used-up schedule (`[]`)
serves the oldest request of all, are the model's choice (log 7). The idle step is read from R306 and R312 (log 11). -/
def Obligations.StepPresentsOneRequest : Prop :=
  ∀ s : State, s.resetPending = false →
    (s.requests = [] → step s = .next s) ∧
    (s.requests ≠ [] → ∃ pre q post, s.requests = pre ++ q :: post ∧ (∀ r ∈ pre, r.requester ≠ q.requester) ∧
      presentRequest s = some { s with port := q, requests := pre ++ post, schedule := s.schedule.tail } ∧
      (s.schedule = [] → pre = []))

/-- The first instruction after a request is placed (log 12): `withFetchWord` makes the very next step run the instruction whose word it
is given, with operand ports of zeros. -/
def Obligations.PlacedWordRunsNext : Prop :=
  ∀ (i : Instr) (s : State),
    step (s.withFetchWord 8 (encode i).toNat) = exec i { s with resetPending := false, port := ⟨0, encode i, 0, 0⟩ }

/-- R301, R66, R262, R303: a reserved OP, or FMTDEC while FEAT_STD = 0, gets R = 0, ERR = 1 and STR empty, records the fault and changes
nothing else. -/
def Obligations.IllegalCommandResponse : Prop :=
  ∀ s t : State, s.resetPending = false → presentRequest s = some t → IllegalCommand s.featStd t.port.cmd →
    step s = .next t.illegal

/-- R66, R300, R301: no other command is illegal, and no numeric condition is an exception: every other command is answered with ERR = 0
and records no fault. -/
def Obligations.LegalCommandNeverFails : Prop :=
  ∀ s t : State, s.resetPending = false → presentRequest s = some t → ¬ IllegalCommand s.featStd t.port.cmd →
    ∃ u r str, step s = .next u ∧ u.out = some ⟨r, 0#1, str⟩ ∧ u.fault = s.fault ∧
      u.delivered = s.delivered ++ [⟨t.port, ⟨r, 0#1, str⟩⟩]

/-! ### The invariant -/

/-- The invariant holds at reset. -/
def Obligations.InvariantAtReset : Prop := State.reset.Inv

/-- Every step keeps the invariant: delivered responses are ones their requests may get (R63, R301), R, ERR and STR are the last
response, and the recorded fault is the first IllegalOp delivered. -/
def Obligations.InvariantKept : Prop :=
  ∀ s t : State, s.Inv → step s = .next t → t.Inv

/-! ### Independence and the two paths -/

/-- R22, R23, R62: on the portable path a response depends on nothing but the operand bits the operation reads and FEAT_STD: not on
earlier requests, on the other bits of the ports, on the requester or on the order of service. -/
def Obligations.ResponseDependsOnOwnRequestOnly : Prop :=
  ∀ (i : Instr) (s t : State), s.cap = 0#1 → t.cap = 0#1 → s.featStd = t.featStd →
    s.port.a.toNat % 2 ^ bitsOfA i = t.port.a.toNat % 2 ^ bitsOfA i →
    s.port.b.toNat % 2 ^ bitsOfB i = t.port.b.toNat % 2 ^ bitsOfB i →
    ∃ s' t' resp, exec i s = .next s' ∧ exec i t = .next t' ∧ s'.out = some resp ∧ t'.out = some resp

/-- R115, R116: the two paths give the same response, but for the payload of a NaN of an operation R115 covers: both R values are then
NaN of its result format, with one sign and no bit above the format's width, so they differ in the mantissa field only. -/
def Obligations.PathsAgreeButForNaNPayload : Prop :=
  ∀ (i : Instr) (s : State), ∃ p h rp rh,
    exec i { s with cap := 0#1 } = .next p ∧ exec i { s with cap := 1#1 } = .next h ∧
    p.out = some rp ∧ h.out = some rh ∧ rp.err = rh.err ∧ rp.str = rh.str ∧
    (rp.r = rh.r ∨ ∃ T, dispatchTag i = some T ∧ classOf T rp.r = .nan ∧ classOf T rh.r = .nan ∧
      (fields T rp.r).s = (fields T rh.r).s ∧
      rp.r.toNat < 2 ^ (1 + ew T + mw T) ∧ rh.r.toNat < 2 ^ (1 + ew T + mw T) ∧
      rp.r.toNat / 2 ^ mw T = rh.r.toNat / 2 ^ mw T)

/-! ### Formats and rounding -/

/-- R112: `rne` rounds an exact magnitude to the nearest representable value, ties to even, in every format. -/
def Obligations.RoundingIsNearestEven : Prop :=
  ∀ (s : Bool) (num den : Nat), 0 < den →
    NearestEven .h s (num / den) (rne .h s num den : BitVec 16) ∧
    NearestEven .bf s (num / den) (rne .bf s num den : BitVec 16) ∧
    NearestEven .s s (num / den) (rne .s s num den : BitVec 32) ∧
    NearestEven .d s (num / den) (rne .d s num den : BitVec 64)

/-- R113, R145: the narrowing algorithms of R147 to R150 compute the exact narrowing, on every pattern. -/
def Obligations.NarrowingIsExactRounding : Prop :=
  (∀ (f : Fmt) (y : BitVec 32), narrowFromS f y = narrowExact .s f.tag y) ∧
  (∀ (f : Fmt) (y : BitVec 64), narrowFromD f y = narrowExact .d f.tag y)

/-- R140: widening is exact for every pattern. -/
def Obligations.WideningIsExact : Prop :=
  ∀ (f : Fmt) (x : Pat16), IsWidening f.tag .s x (widenToS f x) ∧ IsWidening f.tag .d x (widenToD f x)

/-- R109: among patterns of one sign that are not NaN, the magnitude bits are in the order of the magnitudes, with the infinity
greatest. -/
def Obligations.PatternOrderIsValueOrder : Prop :=
  ∀ (f : Fmt) (x y : Pat16), ¬ IsNaN16 f x → ¬ IsNaN16 f y → sign16 x = false → sign16 y = false →
    (magBits x < magBits y ↔ extValue f.tag x < extValue f.tag y)

/-- R151: TOF32 then FROMF32, and TOF64 then FROMF64, with the first response passed as the second request's A, give A[15:0] back bit
for bit: on the portable path for every pattern, NaNs included; on the hardware-intrinsic path for every pattern that is not NaN, while a
NaN stays a NaN of the same sign. -/
def Obligations.RoundTripBitForBit : Prop :=
  ∀ (f : Fmt) (s : State) (widen narrow : Instr), (widen, narrow) ∈ [(Instr.tof32 f, Instr.fromf32 f), (.tof64 f, .fromf64 f)] →
    ∃ t y u z, exec widen s = .next t ∧ hostRead t = some y ∧
      exec narrow { t with port := { t.port with a := y.r } } = .next u ∧ hostRead u = some ⟨z, 0#1, []⟩ ∧ z.toNat < 2 ^ 16 ∧
      (s.cap = 0#1 ∨ ¬ IsNaN16 f (s.port.a.setWidth 16) → z.toNat = s.port.a.toNat % 2 ^ 16) ∧
      (IsNaN16 f (s.port.a.setWidth 16) → IsNaN16 f (z.setWidth 16) ∧ sign16 (z.setWidth 16) = sign16 (s.port.a.setWidth 16))

/-! ### Conversions -/

/-- R155, R156, R65: FROMBITS and TOBITS return A[15:0] unchanged, on both paths and in both formats. -/
def Obligations.RawBitsUnchanged : Prop :=
  Encoded .frombits 0x00 0x80 ∧ Encoded .tobits 0x01 0x81 ∧
  ∀ (f : Fmt) (s : State),
    exec (.frombits f) s = .next (s.answered (BitVec.ofNat 64 (s.port.a.toNat % 2 ^ 16)) []) ∧
    exec (.tobits f) s = .next (s.answered (BitVec.ofNat 64 (s.port.a.toNat % 2 ^ 16)) [])

/-- R157, R158: FROMF32 and FROMF64 answer the exact narrowing (R113) of A, rounded once. -/
def Obligations.FromFloatNarrowsOnce : Prop :=
  Encoded .fromf32 0x02 0x82 ∧ Encoded .fromf64 0x03 0x83 ∧
  ∀ (f : Fmt) (s : State),
    Dispatched f.tag (narrowExact .s f.tag (s.port.a.setWidth 32)) (.fromf32 f) s ∧
    Dispatched f.tag (narrowExact .d f.tag s.port.a) (.fromf64 f) s

/-- R159, R160: TOF32 and TOF64 answer the exact widening of A[15:0]. -/
def Obligations.ToFloatWidensExactly : Prop :=
  Encoded .tof32 0x04 0x84 ∧ Encoded .tof64 0x05 0x85 ∧
  ∀ (f : Fmt) (s : State),
    (∃ y : BitVec 32, IsWidening f.tag .s (s.port.a.setWidth 16) y ∧ Dispatched .s y (.tof32 f) s) ∧
    (∃ y : BitVec 64, IsWidening f.tag .d (s.port.a.setWidth 16) y ∧ Dispatched .d y (.tof64 f) s)

/-- R161, R162: FROMI64 and FROMU64 round the exact integer once; 0 gives +0. -/
def Obligations.FromIntegerRoundsOnce : Prop :=
  Encoded .fromi64 0x06 0x86 ∧ Encoded .fromu64 0x07 0x87 ∧
  ∀ (f : Fmt) (s : State),
    (∃ P : Pat16, (if s.port.a.toInt = 0 then P = 0#16
        else NearestEven f.tag (decide (s.port.a.toInt < 0)) |(s.port.a.toInt : ℚ)| P) ∧ Dispatched f.tag P (.fromi64 f) s) ∧
    (∃ P : Pat16, (if s.port.a.toNat = 0 then P = 0#16
        else NearestEven f.tag false (s.port.a.toNat : ℚ) P) ∧ Dispatched f.tag P (.fromu64 f) s)

/-! ### Arithmetic -/

/-- R190 (by R180, R182, R187, R188 and R115): ADD. -/
def Obligations.AddResult : Prop :=
  Encoded .add 0x10 0x90 ∧
  ∀ (f : Fmt) (s : State), ∃ P,
    nanFirst f (s.port.a.setWidth 16) (s.port.b.setWidth 16) P
      (SumResult f (s.port.a.setWidth 16) (s.port.b.setWidth 16) P) ∧ Dispatched f.tag P (.add f) s

/-- R191 (by R180, R183, R187, R188 and R115): SUB, the sum with the second operand's sign inverted; a NaN operand is propagated as it is. -/
def Obligations.SubResult : Prop :=
  Encoded .sub 0x11 0x91 ∧
  ∀ (f : Fmt) (s : State), ∃ P,
    nanFirst f (s.port.a.setWidth 16) (s.port.b.setWidth 16) P
      (SumResult f (s.port.a.setWidth 16) (s.port.b.setWidth 16 ^^^ 0x8000#16) P) ∧ Dispatched f.tag P (.sub f) s

/-- R192 (by R180, R184, R187, R188 and R115): MUL. -/
def Obligations.MulResult : Prop :=
  Encoded .mul 0x12 0x92 ∧
  ∀ (f : Fmt) (s : State), ∃ P,
    nanFirst f (s.port.a.setWidth 16) (s.port.b.setWidth 16) P
      (ProductResult f (s.port.a.setWidth 16) (s.port.b.setWidth 16) P) ∧ Dispatched f.tag P (.mul f) s

/-- R193 (by R180, R185, R187, R188 and R115): DIV. -/
def Obligations.DivResult : Prop :=
  Encoded .div 0x13 0x93 ∧
  ∀ (f : Fmt) (s : State), ∃ P,
    nanFirst f (s.port.a.setWidth 16) (s.port.b.setWidth 16) P
      (QuotientResult f (s.port.a.setWidth 16) (s.port.b.setWidth 16) P) ∧ Dispatched f.tag P (.div f) s

/-- R194 (by R180, R186, R187, R188 and R115): REM. That the result's value is exactly `a - b * trunc(a / b)`, with the dividend's sign
and no rounding in binary32 or in the narrowing, is an inference that R186 marks as derived ("[derived: from this definition; checked on
30,000 random pairs per format ...]"). -/
def Obligations.RemResult : Prop :=
  Encoded .rem 0x14 0x94 ∧
  ∀ (f : Fmt) (s : State), ∃ P,
    nanFirst f (s.port.a.setWidth 16) (s.port.b.setWidth 16) P
      (RemainderResult f (s.port.a.setWidth 16) (s.port.b.setWidth 16) P) ∧ Dispatched f.tag P (.rem f) s

/-- R195: NEG inverts the sign of every pattern and nothing else. -/
def Obligations.NegInvertsSign : Prop :=
  Encoded .neg 0x15 0x95 ∧
  ∀ (f : Fmt) (s : State), ∃ P : Pat16,
    magBits P = magBits (s.port.a.setWidth 16) ∧ sign16 P = !sign16 (s.port.a.setWidth 16) ∧ Dispatched f.tag P (.neg f) s

/-! ### Predicates, comparisons and ordering -/

/-- R220 to R223: the predicates, by the pattern's bits. -/
def Obligations.PredicateResults : Prop :=
  Encoded .isnan 0x08 0x88 ∧ Encoded .isinf 0x09 0x89 ∧ Encoded .isfinite 0x0A 0x8A ∧ Encoded .issignneg 0x0B 0x8B ∧
  ∀ (f : Fmt) (s : State),
    exec (.isnan f) s = .next (s.answered (if infBits f < s.port.a.toNat % 0x8000 then 1 else 0) []) ∧
    exec (.isinf f) s = .next (s.answered (if s.port.a.toNat % 0x8000 = infBits f then 1 else 0) []) ∧
    exec (.isfinite f) s = .next (s.answered (if s.port.a.toNat % 0x8000 < infBits f then 1 else 0) []) ∧
    exec (.issignneg f) s = .next (s.answered (BitVec.ofNat 64 (s.port.a.toNat / 0x8000 % 2)) [])

/-- R224: CLASSIFY, by the pattern's bits. -/
def Obligations.ClassifyResult : Prop :=
  Encoded .classify 0x0C 0x8C ∧
  ∀ (f : Fmt) (s : State),
    exec (.classify f) s = .next (s.answered
      (if infBits f < s.port.a.toNat % 0x8000 then 0
        else if s.port.a.toNat % 0x8000 = infBits f then 1
        else if s.port.a.toNat % 0x8000 = 0 then 2
        else if s.port.a.toNat % 0x8000 < normalBits f then 3 else 4) [])

/-- R226 to R232: with a NaN operand NE gives 1 and the other five comparisons 0; two operands that are not NaN are compared by value,
with the infinities outside the finite values and the two zeros equal. -/
def Obligations.ComparisonResults : Prop :=
  Encoded .eq 0x18 0x98 ∧ Encoded .ne 0x19 0x99 ∧ Encoded .lt 0x1A 0x9A ∧ Encoded .le 0x1B 0x9B ∧ Encoded .gt 0x1C 0x9C ∧
  Encoded .ge 0x1D 0x9D ∧
  ∀ (f : Fmt) (s : State),
    (IsNaN16 f (s.port.a.setWidth 16) ∨ IsNaN16 f (s.port.b.setWidth 16) →
      exec (.ne f) s = .next (s.answered 1 []) ∧
      ∀ i ∈ [Instr.eq f, .lt f, .le f, .gt f, .ge f], exec i s = .next (s.answered 0 [])) ∧
    (¬ IsNaN16 f (s.port.a.setWidth 16) → ¬ IsNaN16 f (s.port.b.setWidth 16) →
      let va := extValue f.tag (s.port.a.setWidth 16 : Pat16)
      let vb := extValue f.tag (s.port.b.setWidth 16 : Pat16)
      exec (.eq f) s = .next (s.answered (if va = vb then 1 else 0) []) ∧
      exec (.ne f) s = .next (s.answered (if va = vb then 0 else 1) []) ∧
      (∃ r : Word64, exec (.lt f) s = .next (s.answered r []) ∧ r.toNat ≤ 1 ∧ (r = 1 ↔ va < vb)) ∧
      (∃ r : Word64, exec (.le f) s = .next (s.answered r []) ∧ r.toNat ≤ 1 ∧ (r = 1 ↔ va ≤ vb)) ∧
      (∃ r : Word64, exec (.gt f) s = .next (s.answered r []) ∧ r.toNat ≤ 1 ∧ (r = 1 ↔ vb < va)) ∧
      (∃ r : Word64, exec (.ge f) s = .next (s.answered r []) ∧ r.toNat ≤ 1 ∧ (r = 1 ↔ vb ≤ va)))

/-- R233, R234: TOTALCMP answers minus one, zero or one as A[15:0] is below, the same pattern as, or above B[15:0] in the total order. -/
def Obligations.TotalCompareResult : Prop :=
  Encoded .totalcmp 0x1E 0x9E ∧
  ∀ (f : Fmt) (s : State), ∃ r : Word64, exec (.totalcmp f) s = .next (s.answered r []) ∧
    (r = 0xFFFFFFFFFFFFFFFF#64 ↔ TotalBelow f (s.port.a.setWidth 16) (s.port.b.setWidth 16)) ∧
    (r = 0 ↔ (s.port.a.setWidth 16 : Pat16) = s.port.b.setWidth 16) ∧
    (r = 1 ↔ TotalBelow f (s.port.b.setWidth 16) (s.port.a.setWidth 16)) ∧
    (r = 0xFFFFFFFFFFFFFFFF#64 ∨ r = 0 ∨ r = 1)

/-- R233: the total order is strict and total on the patterns: the keys are injective and order them as R233's words do. -/
def Obligations.TotalOrderIsStrict : Prop :=
  ∀ (f : Fmt),
    (∀ a b : Pat16, tkey f.tag a = tkey f.tag b → a = b) ∧
    (∀ a b : Pat16, tkey f.tag a < tkey f.tag b ↔ TotalBelow f a b) ∧
    (∀ a, ¬ TotalBelow f a a) ∧
    (∀ a b c, TotalBelow f a b → TotalBelow f b c → TotalBelow f a c) ∧
    (∀ a b, a ≠ b → TotalBelow f a b ∨ TotalBelow f b a)

/-- R235 to R237: MIN and MAX ignore a NaN; two NaNs give the first, quieted; two numbers give the lower or the higher in the total order,
bit for bit. -/
def Obligations.MinMaxIgnoreNaN : Prop :=
  Encoded .min 0x20 0xA0 ∧ Encoded .max 0x21 0xA1 ∧
  ∀ (f : Fmt) (s : State),
    let a : Pat16 := s.port.a.setWidth 16
    let b : Pat16 := s.port.b.setWidth 16
    (∃ P, (if IsNaN16 f a then (if IsNaN16 f b then P = a ||| quietMask f else P = b)
        else if IsNaN16 f b then P = a
        else (P = a ∨ P = b) ∧ ¬ TotalBelow f a P ∧ ¬ TotalBelow f b P) ∧ Dispatched f.tag P (.min f) s) ∧
    (∃ P, (if IsNaN16 f a then (if IsNaN16 f b then P = a ||| quietMask f else P = b)
        else if IsNaN16 f b then P = a
        else (P = a ∨ P = b) ∧ ¬ TotalBelow f P a ∧ ¬ TotalBelow f P b) ∧ Dispatched f.tag P (.max f) s)

/-- R235, R238, R239: MINIMUM and MAXIMUM propagate a NaN, the first before the second, quieted; two numbers give the lower or the higher
in the total order, bit for bit. -/
def Obligations.MinimumMaximumPropagateNaN : Prop :=
  Encoded .minimum 0x22 0xA2 ∧ Encoded .maximum 0x23 0xA3 ∧
  ∀ (f : Fmt) (s : State),
    let a : Pat16 := s.port.a.setWidth 16
    let b : Pat16 := s.port.b.setWidth 16
    (∃ P, nanFirst f a b P ((P = a ∨ P = b) ∧ ¬ TotalBelow f a P ∧ ¬ TotalBelow f b P) ∧ Dispatched f.tag P (.minimum f) s) ∧
    (∃ P, nanFirst f a b P ((P = a ∨ P = b) ∧ ¬ TotalBelow f P a ∧ ¬ TotalBelow f P b) ∧ Dispatched f.tag P (.maximum f) s)

/-! ### Renderings -/

/-- R260, R44: FMTBITS answers `0x` and the four lower-case hexadecimal digits of A[15:0], character i in R[8i+7:8i]. -/
def Obligations.RawBitsRendering : Prop :=
  Encoded .fmtbits 0x28 0xA8 ∧
  ∀ (f : Fmt) (s : State), ∃ r : Word64, exec (.fmtbits f) s = .next (s.answered r []) ∧
    r.toNat % 0x10000 = 0x7830 ∧ r.toNat < 2 ^ 48 ∧
    ∀ k, k < 4 → some (BitVec.ofNat 8 (r.toNat / 2 ^ (8 * (k + 2)))) =
      ([0x30#8, 0x31#8, 0x32#8, 0x33#8, 0x34#8, 0x35#8, 0x36#8, 0x37#8, 0x38#8, 0x39#8, 0x61#8, 0x62#8, 0x63#8, 0x64#8, 0x65#8,
        0x66#8] : List Byte)[s.port.a.toNat / 16 ^ (3 - k) % 16]?

/-- R261: with FEAT_STD = 1, FMTDEC answers the rendering in STR and its byte count in R; with FEAT_STD = 0 it raises IllegalOp. The
rendering is not empty. -/
def Obligations.DecimalRendering : Prop :=
  Encoded .fmtdec 0x29 0xA9 ∧
  ∀ (f : Fmt) (s : State),
    (s.featStd = true → ∃ r : Word64, exec (.fmtdec f) s = .next (s.answered r (decRender f (s.port.a.setWidth 16))) ∧
      r.toNat = (decRender f (s.port.a.setWidth 16)).length ∧ 0 < r.toNat) ∧
    (s.featStd = false → exec (.fmtdec f) s = .next s.illegal)

/-- R262: FEAT_STD = 0 makes FMTDEC illegal and changes nothing else: every other operation, FMTBITS among them, answers the same with
either value. -/
def Obligations.FeatStdGatesOnlyFmtdec : Prop :=
  (∀ (f : Fmt) (s : State), exec (.fmtdec f) { s with featStd := false } = .next { s with featStd := false }.illegal) ∧
  ∀ (i : Instr) (s : State), (∀ f, i ≠ .fmtdec f) →
    ∃ t : State, exec i { s with featStd := true } = .next { t with featStd := true } ∧
      exec i { s with featStd := false } = .next { t with featStd := false }

/-- R263 as the model reads it: DEC_RENDER has the four properties, whatever the uninterpreted function is, and a function that has them
is itself a possible DEC_RENDER, so nothing more than that reading is assumed of it. The readings are the model's, DEDUCED: a text is
shorter than 2^64 bytes (log 14); in (3) `digits` is one digit or more and the two zeros read back as equal but for the `-` before -0
(log 18); in (4) NaN texts may differ among themselves (log 19). -/
def Obligations.RenderingHasExactlyR263 : Prop :=
  RenderOk decRender ∧ (∀ raw, RenderOk (restrictRender raw)) ∧
    ∀ raw, RenderOk raw → ∀ f a, restrictRender raw f a = raw f a
end

