-- ==== Sys2Proof/Laws/Formats.lean ====
section
/-! SUPPORT. Fields and packing are inverse on a format's own width (R105), classes by the fields and by the magnitude bits (R106), and the
magnitude of a pattern in whole units of its format's smallest subnormal (R107). -/

namespace Sys2Proof.Machine

/-- The width of a format's patterns (R100 to R103). -/
def patWidth (T : Tag) : Nat := 1 + ew T + mw T

@[simp] theorem patWidth_h : patWidth .h = 16 := rfl
@[simp] theorem patWidth_bf : patWidth .bf = 16 := rfl
@[simp] theorem patWidth_s : patWidth .s = 32 := rfl
@[simp] theorem patWidth_d : patWidth .d = 64 := rfl
@[simp] theorem patWidth_tag (f : Fmt) : patWidth f.tag = 16 := by cases f <;> rfl

theorem mw_pos (T : Tag) : 0 < mw T := by cases T <;> decide
theorem ew_pos (T : Tag) : 0 < ew T := by cases T <;> decide

/-! ### Fields and packing -/

theorem fields_e_lt {n : Nat} (T : Tag) (x : BitVec n) : (fields T x).e < 2 ^ ew T := Nat.mod_lt _ (by positivity)
theorem fields_m_lt {n : Nat} (T : Tag) (x : BitVec n) : (fields T x).m < 2 ^ mw T := Nat.mod_lt _ (by positivity)

theorem fields_e_le {n : Nat} (T : Tag) (x : BitVec n) : (fields T x).e ≤ emaxField T := by
  have := fields_e_lt T x
  unfold emaxField
  omega

/-- The number of a sign, an exponent field and a mantissa field. -/
theorem toNat_pack {n : Nat} {T : Tag} (hn : n = patWidth T) {s : Bool} {e m : Nat} (he : e < 2 ^ ew T) (hm : m < 2 ^ mw T) :
    (pack T s e m : BitVec n).toNat = s.toNat * 2 ^ (ew T + mw T) + e * 2 ^ mw T + m := by
  subst hn
  have h1 : e * 2 ^ mw T + m < 2 ^ (ew T + mw T) := by
    have : (e + 1) * 2 ^ mw T ≤ 2 ^ ew T * 2 ^ mw T := Nat.mul_le_mul_right _ he
    rw [pow_add]
    nlinarith
  have h2 : 2 ^ patWidth T = 2 * 2 ^ (ew T + mw T) := by
    rw [patWidth, Nat.add_assoc, pow_add]
    norm_num
  simp only [pack, BitVec.toNat_ofNat]
  apply Nat.mod_eq_of_lt
  rw [h2]
  cases s <;> simp <;> omega

theorem fields_pack {n : Nat} {T : Tag} (hn : n = patWidth T) {s : Bool} {e m : Nat} (he : e < 2 ^ ew T) (hm : m < 2 ^ mw T) :
    fields T (pack T s e m : BitVec n) = ⟨s, e, m⟩ := by
  have ht := toNat_pack hn (s := s) he hm
  have h1 : e * 2 ^ mw T + m < 2 ^ (ew T + mw T) := by
    have : (e + 1) * 2 ^ mw T ≤ 2 ^ ew T * 2 ^ mw T := Nat.mul_le_mul_right _ he
    rw [pow_add]
    nlinarith
  have hm0 : 0 < 2 ^ mw T := by positivity
  have hs : (s.toNat * 2 ^ (ew T + mw T) + e * 2 ^ mw T + m) = (s.toNat * 2 ^ ew T + e) * 2 ^ mw T + m := by
    rw [pow_add]
    ring
  unfold fields
  congr 1
  · rw [BitVec.getLsbD, ht, Nat.testBit_eq_decide_div_mod_eq, Nat.add_assoc, Nat.mul_comm, Nat.mul_add_div (by positivity),
      Nat.div_eq_of_lt h1]
    cases s <;> rfl
  · rw [ht, hs, Nat.mul_comm, Nat.mul_add_div hm0, Nat.div_eq_of_lt hm, Nat.add_zero, Nat.mul_comm, Nat.mul_add_mod,
      Nat.mod_eq_of_lt he]
  · rw [ht, hs, Nat.mul_comm, Nat.mul_add_mod, Nat.mod_eq_of_lt hm]

/-- A pattern's number in its fields. -/
theorem toNat_eq_fields {n : Nat} {T : Tag} (hn : n = patWidth T) (x : BitVec n) :
    x.toNat = (fields T x).s.toNat * 2 ^ (ew T + mw T) + (fields T x).e * 2 ^ mw T + (fields T x).m := by
  have hlt : x.toNat < 2 * (2 ^ ew T * 2 ^ mw T) := by
    have h2 : 2 ^ n = 2 * (2 ^ ew T * 2 ^ mw T) := by
      rw [hn, patWidth, Nat.add_assoc, pow_add, pow_add]
      norm_num
    exact h2 ▸ x.isLt
  have hs : (fields T x).s.toNat = x.toNat / (2 ^ ew T * 2 ^ mw T) := by
    have : x.toNat / (2 ^ ew T * 2 ^ mw T) < 2 := by
      rw [Nat.div_lt_iff_lt_mul (by positivity)]
      exact hlt
    simp only [fields, BitVec.getLsbD, Nat.testBit_eq_decide_div_mod_eq, pow_add]
    interval_cases x.toNat / (2 ^ ew T * 2 ^ mw T) <;> rfl
  have he : (fields T x).e = x.toNat / 2 ^ mw T % 2 ^ ew T := rfl
  have hm : (fields T x).m = x.toNat % 2 ^ mw T := rfl
  rw [hs, he, hm, pow_add, Nat.mul_comm (2 ^ ew T) (2 ^ mw T), ← Nat.div_div_eq_div_mul]
  have h1 := Nat.div_add_mod (x.toNat / 2 ^ mw T) (2 ^ ew T)
  have h2 := Nat.div_add_mod x.toNat (2 ^ mw T)
  calc x.toNat = 2 ^ mw T * (x.toNat / 2 ^ mw T) + x.toNat % 2 ^ mw T := h2.symm
    _ = 2 ^ mw T * (2 ^ ew T * (x.toNat / 2 ^ mw T / 2 ^ ew T) + x.toNat / 2 ^ mw T % 2 ^ ew T) + x.toNat % 2 ^ mw T := by rw [h1]
    _ = _ := by ring

theorem pack_fields {n : Nat} {T : Tag} (hn : n = patWidth T) (x : BitVec n) :
    pack T (fields T x).s (fields T x).e (fields T x).m = x := by
  apply BitVec.eq_of_toNat_eq
  rw [toNat_pack hn (fields_e_lt T x) (fields_m_lt T x), ← toNat_eq_fields hn]

/-- Patterns with the same fields are the same. -/
theorem eq_of_fields {n : Nat} {T : Tag} (hn : n = patWidth T) {x y : BitVec n} (h : fields T x = fields T y) : x = y := by
  rw [← pack_fields hn x, ← pack_fields hn y, h]

/-- Inverting the sign bit inverts the sign and keeps the exponent and the mantissa. -/
theorem fields_flipSign {n : Nat} {T : Tag} (hn : n = patWidth T) (x : BitVec n) :
    fields T (x ^^^ BitVec.ofNat n (2 ^ (ew T + mw T))) = ⟨!(fields T x).s, (fields T x).e, (fields T x).m⟩ := by
  have h2 : (BitVec.ofNat n (2 ^ (ew T + mw T))).toNat = 2 ^ (ew T + mw T) := by
    rw [BitVec.toNat_ofNat, hn]
    exact Nat.mod_eq_of_lt (Nat.pow_lt_pow_right (by norm_num) (by unfold patWidth; omega))
  simp only [fields, Fields.mk.injEq, BitVec.getLsbD, BitVec.toNat_xor, h2]
  refine ⟨by rw [Nat.testBit_xor, Nat.testBit_two_pow_self, Bool.xor_true], ?_, ?_⟩
  · apply Nat.eq_of_testBit_eq
    intro i
    simp only [Nat.testBit_mod_two_pow, Nat.testBit_div_two_pow, Nat.testBit_xor, Nat.testBit_two_pow]
    by_cases hi : i < ew T
    · simp [show ¬ (ew T = i) by omega]
    · simp [hi]
  · apply Nat.eq_of_testBit_eq
    intro i
    have := ew_pos T
    simp only [Nat.testBit_mod_two_pow, Nat.testBit_xor, Nat.testBit_two_pow]
    by_cases hi : i < mw T
    · simp [show ¬ (ew T + mw T = i) by omega]
    · simp [hi]

/-! ### Classes (R106) -/

theorem classOf_nan {n : Nat} {T : Tag} {x : BitVec n} :
    classOf T x = .nan ↔ (fields T x).e = emaxField T ∧ (fields T x).m ≠ 0 := by
  simp only [classOf]
  split_ifs <;> simp_all

theorem classOf_infinite {n : Nat} {T : Tag} {x : BitVec n} :
    classOf T x = .infinite ↔ (fields T x).e = emaxField T ∧ (fields T x).m = 0 := by
  simp only [classOf]
  split_ifs <;> simp_all

theorem emaxField_lt (T : Tag) : emaxField T < 2 ^ ew T := by
  have : 0 < 2 ^ ew T := by positivity
  unfold emaxField
  omega

theorem emaxField_pos (T : Tag) : 2 < emaxField T := by cases T <;> decide

theorem classOf_zero {n : Nat} {T : Tag} {x : BitVec n} :
    classOf T x = .zero ↔ (fields T x).e = 0 ∧ (fields T x).m = 0 := by
  have := emaxField_pos T
  simp only [classOf]
  split_ifs <;> simp_all
  omega

theorem classOf_subnormal {n : Nat} {T : Tag} {x : BitVec n} :
    classOf T x = .subnormal ↔ (fields T x).e = 0 ∧ (fields T x).m ≠ 0 := by
  have := emaxField_pos T
  simp only [classOf]
  split_ifs <;> simp_all
  omega

theorem classOf_normal {n : Nat} {T : Tag} {x : BitVec n} :
    classOf T x = .normal ↔ (fields T x).e ≠ 0 ∧ (fields T x).e ≠ emaxField T := by
  simp only [classOf]
  split_ifs <;> simp_all

theorem isFinite_iff {n : Nat} {T : Tag} {x : BitVec n} : IsFinite T x ↔ (fields T x).e ≠ emaxField T := by
  have := emaxField_pos T
  unfold IsFinite
  rw [classOf_zero, classOf_subnormal, classOf_normal]
  constructor
  · rintro (h | h | h) <;> omega
  · intro h
    by_cases he : (fields T x).e = 0
    · by_cases hm : (fields T x).m = 0
      · exact .inl ⟨he, hm⟩
      · exact .inr (.inl ⟨he, hm⟩)
    · exact .inr (.inr ⟨he, h⟩)

theorem not_isFinite_iff {n : Nat} {T : Tag} {x : BitVec n} :
    ¬ IsFinite T x ↔ classOf T x = .nan ∨ classOf T x = .infinite := by
  rw [isFinite_iff, classOf_nan, classOf_infinite]
  tauto

/-! ### 16-bit patterns by their bits -/

theorem sign16_eq (f : Fmt) (a : Pat16) : (fields f.tag a).s = sign16 a := by
  have h := a.isLt
  have hs : (fields f.tag a).s = a.getLsbD 15 := by cases f <;> rfl
  rw [hs, BitVec.getLsbD, Nat.testBit_eq_decide_div_mod_eq, sign16]
  congr 1
  apply propext
  omega

theorem magBits_eq (f : Fmt) (a : Pat16) : (fields f.tag a).e * 2 ^ mw f.tag + (fields f.tag a).m = magBits a := by
  have h := toNat_eq_fields (T := f.tag) (by simp) a
  have h1 := fields_e_lt f.tag a
  have h2 := fields_m_lt f.tag a
  unfold magBits
  rw [h]
  cases f <;> cases (fields _ a).s <;> simp [Fmt.tag, ew, mw] at * <;> omega

theorem infBits_eq (f : Fmt) : infBits f = emaxField f.tag * 2 ^ mw f.tag := by cases f <;> rfl

theorem isNaN16_iff (f : Fmt) (a : Pat16) : classOf f.tag a = .nan ↔ IsNaN16 f a := by
  have h := magBits_eq f a
  have h1 := fields_e_le f.tag a
  have h2 := fields_m_lt f.tag a
  rw [classOf_nan, IsNaN16, ← h]
  cases f <;> simp [Fmt.tag, emaxField, ew, mw, infBits] at * <;> omega

theorem isInf16_iff (f : Fmt) (a : Pat16) : classOf f.tag a = .infinite ↔ IsInf16 f a := by
  have h := magBits_eq f a
  have h1 := fields_e_le f.tag a
  have h2 := fields_m_lt f.tag a
  rw [classOf_infinite, IsInf16, ← h]
  cases f <;> simp [Fmt.tag, emaxField, ew, mw, infBits] at * <;> omega

theorem isZero16_iff (f : Fmt) (a : Pat16) : classOf f.tag a = .zero ↔ IsZero16 a := by
  have h := magBits_eq f a
  rw [classOf_zero, IsZero16, ← h]
  cases f <;> simp [Fmt.tag, mw]

theorem isFinite16_iff (f : Fmt) (a : Pat16) : IsFinite f.tag a ↔ magBits a < infBits f := by
  have h := magBits_eq f a
  have h1 := fields_e_le f.tag a
  have h2 := fields_m_lt f.tag a
  rw [isFinite_iff, ← h]
  cases f <;> simp [Fmt.tag, emaxField, ew, mw, infBits] at * <;> omega

theorem toNat_eq_sign_mag (a : Pat16) : a.toNat = (if sign16 a then 0x8000 else 0) + magBits a := by
  have := a.isLt
  unfold sign16 magBits
  split <;> simp_all <;> omega

end Sys2Proof.Machine
end

