-- ==== Sys2Proof/Laws/Rounding.lean ====
section
/-! SUPPORT. The magnitude of a pattern as a strictly increasing function of its magnitude bits (R107, R109), its exact rational value, and
the one description of `rne` (R112) its users cite: the pattern whose magnitude bits are `j * 2^mw + k`, where `k * 2^j` units are nearest
to the rounded magnitude with ties to even. -/

namespace Sys2Proof.Machine

/-! ### Magnitude bits and units -/

/-- The magnitude in units of the smallest subnormal that magnitude bits `b = {e, m}` stand for. -/
def unitsOf (T : Tag) (b : Nat) : Nat :=
  if b / 2 ^ mw T = 0 then b % 2 ^ mw T else (2 ^ mw T + b % 2 ^ mw T) * 2 ^ (b / 2 ^ mw T - 1)

/-- The exponent and mantissa fields as one number. -/
def bitsOf {n : Nat} (T : Tag) (x : BitVec n) : Nat := (fields T x).e * 2 ^ mw T + (fields T x).m

theorem bitsOf_div {n : Nat} (T : Tag) (x : BitVec n) : bitsOf T x / 2 ^ mw T = (fields T x).e := by
  have := fields_m_lt T x
  rw [bitsOf, Nat.mul_comm, Nat.mul_add_div (by positivity), Nat.div_eq_of_lt this, Nat.add_zero]

theorem bitsOf_mod {n : Nat} (T : Tag) (x : BitVec n) : bitsOf T x % 2 ^ mw T = (fields T x).m := by
  have := fields_m_lt T x
  rw [bitsOf, Nat.mul_comm, Nat.mul_add_mod, Nat.mod_eq_of_lt this]

theorem magUnits_eq_unitsOf {n : Nat} (T : Tag) (x : BitVec n) : magUnits T x = unitsOf T (bitsOf T x) := by
  rw [unitsOf, bitsOf_div, bitsOf_mod]
  rfl

/-- `k * 2^j` units are the magnitude bits `j * 2^mw + k`, for a significand `k` of at most `p` bits or exactly `2^p`, normalised when
`j` is not 0. -/
theorem unitsOf_scaled (T : Tag) {j k : Nat} (hk : k ≤ 2 ^ (mw T + 1)) (hj : k < 2 ^ mw T → j = 0) :
    unitsOf T (j * 2 ^ mw T + k) = k * 2 ^ j := by
  have hp : 0 < 2 ^ mw T := by positivity
  have h2 : 2 ^ (mw T + 1) = 2 * 2 ^ mw T := by rw [pow_succ]; ring
  rw [h2] at hk
  unfold unitsOf
  by_cases h : k < 2 ^ mw T
  · have := hj h
    subst this
    rw [Nat.zero_mul, Nat.zero_add, Nat.div_eq_of_lt h, if_pos rfl, Nat.mod_eq_of_lt h, pow_zero, Nat.mul_one]
  · by_cases h' : k = 2 * 2 ^ mw T
    · subst h'
      have e1 : j * 2 ^ mw T + 2 * 2 ^ mw T = 2 ^ mw T * (j + 2) := by ring
      rw [e1, Nat.mul_div_cancel_left _ hp, Nat.mul_mod_right, if_neg (by omega), Nat.add_zero]
      have : j + 2 - 1 = j + 1 := by omega
      rw [this, pow_succ]
      ring
    · obtain ⟨m, rfl⟩ : ∃ m, k = 2 ^ mw T + m := ⟨k - 2 ^ mw T, by omega⟩
      have hm : m < 2 ^ mw T := by omega
      have e1 : j * 2 ^ mw T + (2 ^ mw T + m) = 2 ^ mw T * (j + 1) + m := by ring
      rw [e1, Nat.mul_add_div hp, Nat.div_eq_of_lt hm, Nat.mul_add_mod, Nat.mod_eq_of_lt hm, if_neg (by omega)]
      simp

/-- Every magnitude is a significand times a power of two. -/
theorem unitsOf_form (T : Tag) (b : Nat) :
    ∃ j k, b = j * 2 ^ mw T + k ∧ k < 2 ^ (mw T + 1) ∧ (k < 2 ^ mw T → j = 0) ∧ unitsOf T b = k * 2 ^ j := by
  have hp : 0 < 2 ^ mw T := by positivity
  have h2 : 2 ^ (mw T + 1) = 2 * 2 ^ mw T := by rw [pow_succ]; ring
  have hm : b % 2 ^ mw T < 2 ^ mw T := Nat.mod_lt _ hp
  have hb := Nat.div_add_mod b (2 ^ mw T)
  by_cases h : b / 2 ^ mw T = 0
  · refine ⟨0, b, by ring, ?_, fun _ => rfl, ?_⟩
    · rw [h, Nat.mul_zero, Nat.zero_add] at hb; omega
    · rw [unitsOf, if_pos h, pow_zero, Nat.mul_one]
      rw [h, Nat.mul_zero, Nat.zero_add] at hb
      exact hb
  · refine ⟨b / 2 ^ mw T - 1, 2 ^ mw T + b % 2 ^ mw T, ?_, by rw [h2]; linarith, fun hlt => absurd hlt (Nat.not_lt.2 (Nat.le_add_right _ _)), ?_⟩
    · obtain ⟨c, hc⟩ : ∃ c, b / 2 ^ mw T = c + 1 := Nat.exists_eq_succ_of_ne_zero h
      rw [hc] at hb ⊢
      simp only [Nat.add_sub_cancel]
      rw [← Nat.add_assoc, ← Nat.succ_mul, Nat.mul_comm]
      exact hb.symm
    · rw [unitsOf, if_neg h]

theorem unitsOf_lt_succ (T : Tag) (b : Nat) : unitsOf T b < unitsOf T (b + 1) := by
  obtain ⟨j, k, hb, hk, hj, hu⟩ := unitsOf_form T b
  rw [hu, hb, Nat.add_assoc, unitsOf_scaled T (by omega) (by omega)]
  exact Nat.mul_lt_mul_of_pos_right (by omega) (by positivity)

/-- Larger magnitude bits are a larger magnitude (R109). -/
theorem unitsOf_strictMono (T : Tag) : StrictMono (unitsOf T) := strictMono_nat_of_lt_succ (unitsOf_lt_succ T)

/-! ### Exact values (R107) -/

/-- The value of one unit, the smallest subnormal. -/
def unitValue (T : Tag) : ℚ := (2 : ℚ) ^ (-(unitScale T : ℤ))

theorem unitValue_pos (T : Tag) : 0 < unitValue T := by
  unfold unitValue
  positivity

theorem unitScale_cast (T : Tag) : (unitScale T : ℤ) = mw T + bias T - 1 := by cases T <;> rfl

/-- A finite pattern's value is its units with its sign. -/
theorem value_eq_units {n : Nat} {T : Tag} {x : BitVec n} (h : IsFinite T x) :
    value T x = signFactor (fields T x).s * magUnits T x * unitValue T := by
  have hu := unitScale_cast T
  unfold unitValue
  rw [hu]
  rcases h with h | h | h
  · have := classOf_zero.1 h
    simp [value, h, magUnits, this.1, this.2]
  · have := classOf_subnormal.1 h
    simp only [value, h, magUnits, this.1, if_true]
    congr 2
    ring
  · have := classOf_normal.1 h
    simp only [value, h, magUnits, this.1, if_false]
    push_cast
    rw [mul_assoc, mul_assoc, mul_assoc]
    congr 2
    rw [← zpow_natCast, ← zpow_add₀ (by norm_num)]
    congr 1
    push_cast [Nat.cast_sub (Nat.one_le_iff_ne_zero.2 this.1)]
    ring

theorem abs_signFactor (s : Bool) : |signFactor s| = 1 := by cases s <;> simp [signFactor]

theorem abs_value_eq_units {n : Nat} {T : Tag} {x : BitVec n} (h : IsFinite T x) : |value T x| = magUnits T x * unitValue T := by
  rw [value_eq_units h, abs_mul, abs_mul, abs_signFactor, one_mul, Nat.abs_cast, abs_of_pos (unitValue_pos T)]

theorem value_eq_signedUnits {n : Nat} {T : Tag} {x : BitVec n} (h : IsFinite T x) :
    value T x = signedUnits T x * unitValue T := by
  rw [value_eq_units h, signedUnits]
  cases (fields T x).s <;> simp [signFactor]

/-! ### Rounding (R112) -/

/-- The overflow threshold in units (R112). -/
def overflowUnits (T : Tag) : Nat := (2 ^ (prec T + 1) - 1) * 2 ^ (emaxField T - 3)

theorem overflowAt_eq_units (T : Tag) : overflowAt T = overflowUnits T * unitValue T := by
  have h1 : 1 ≤ 2 ^ (prec T + 1) := Nat.one_le_two_pow
  have h3 : 3 ≤ emaxField T := emaxField_pos T
  unfold overflowAt overflowUnits unitValue
  rw [unitScale_cast]
  push_cast [Nat.cast_sub h1]
  have e1 : (2 : ℚ) - 2 ^ (-(prec T : ℤ)) = (2 ^ (prec T + 1) - 1) * 2 ^ (-(prec T : ℤ)) := by
    rw [sub_mul, ← zpow_natCast (2 : ℚ) (prec T + 1), ← zpow_add₀ (by norm_num)]
    push_cast
    have : ((prec T : ℤ) + 1 + -(prec T : ℤ)) = 1 := by ring
    rw [this]
    norm_num
  rw [e1, ← zpow_natCast (2 : ℚ) (emaxField T - 3), mul_left_comm, mul_assoc, ← zpow_add₀ (by norm_num), ← zpow_add₀ (by norm_num)]
  congr 2
  have hp : (prec T : ℤ) = mw T + 1 := by simp [prec]
  rw [hp]
  push_cast [Nat.cast_sub h3]
  ring

/-- What `rne` answers at or above the overflow threshold. -/
theorem rne_overflow {n : Nat} {T : Tag} {s : Bool} {num den : Nat} (h : den * overflowUnits T ≤ num * 2 ^ unitScale T) :
    (rne T s num den : BitVec n) = pack T s (emaxField T) 0 := by
  unfold overflowUnits at h
  simp only [rne, if_pos h]

/-- What `rne` answers below the overflow threshold: the pattern of sign `s` and magnitude bits `j * 2^mw + k`, where `k * 2^j` units are
within half of `2^j` of the exact magnitude, `k` even when exactly half away, and `2^j` is the magnitude's unit in the last place. -/
theorem rne_below {T : Tag} {s : Bool} {num den : Nat} (hd : 0 < den) (h : num * 2 ^ unitScale T < den * overflowUnits T) :
    ∃ j k e m, e < emaxField T ∧ m < 2 ^ mw T ∧ (∀ n, (rne T s num den : BitVec n) = pack T s e m) ∧
      e * 2 ^ mw T + m = j * 2 ^ mw T + k ∧ k ≤ 2 ^ (mw T + 1) ∧ (k < 2 ^ mw T → j = 0) ∧ (m % 2 = k % 2) ∧
      (j ≠ 0 → den * 2 ^ (mw T + j) ≤ num * 2 ^ unitScale T) ∧
      2 * (num * 2 ^ unitScale T) ≤ (2 * k + 1) * (den * 2 ^ j) ∧ 2 * k * (den * 2 ^ j) ≤ 2 * (num * 2 ^ unitScale T) + den * 2 ^ j ∧
      (2 * (num * 2 ^ unitScale T) = (2 * k + 1) * (den * 2 ^ j) → k % 2 = 0) ∧
      (2 * k * (den * 2 ^ j) = 2 * (num * 2 ^ unitScale T) + den * 2 ^ j → k % 2 = 0) := by
  generalize hN : num * 2 ^ unitScale T = N at h ⊢
  generalize hj : Nat.log2 (N / den) - mw T = j
  have hp : 0 < 2 ^ mw T := by positivity
  have h2 : 2 ^ (mw T + 1) = 2 * 2 ^ mw T := by rw [pow_succ]; ring
  have hU : 0 < den * 2 ^ j := by positivity
  generalize hu : den * 2 ^ j = u at hU ⊢
  have hr : N % u < u := Nat.mod_lt _ hU
  have hNdiv : u * (N / u) + N % u = N := Nat.div_add_mod N u
  -- the quotient is normalised when `j` is not 0
  have hlow : j ≠ 0 → den * 2 ^ (mw T + j) ≤ N := by
    intro hj0
    have hne : N / den ≠ 0 := by
      intro h0
      rw [h0] at hj
      simp at hj
      omega
    have := Nat.log2_self_le hne
    have e : Nat.log2 (N / den) = mw T + j := by omega
    rw [e] at this
    calc den * 2 ^ (mw T + j) ≤ den * (N / den) := Nat.mul_le_mul_left _ this
      _ ≤ N := Nat.mul_div_le N den
  have hhigh : N / u < 2 ^ (mw T + 1) := by
    rw [Nat.div_lt_iff_lt_mul hU, ← hu]
    have h1 : N / den < 2 ^ (Nat.log2 (N / den) + 1) := Nat.lt_log2_self
    have h3 : 2 ^ (Nat.log2 (N / den) + 1) ≤ 2 ^ (mw T + 1 + j) := Nat.pow_le_pow_right (by norm_num) (by omega)
    have h4 : N / den < 2 ^ (mw T + 1 + j) := lt_of_lt_of_le h1 h3
    rw [Nat.div_lt_iff_lt_mul hd, pow_add] at h4
    calc N < 2 ^ (mw T + 1) * 2 ^ j * den := h4
      _ = 2 ^ (mw T + 1) * (den * 2 ^ j) := by ring
  have hnorm : j ≠ 0 → 2 ^ mw T ≤ N / u := by
    intro hj0
    rw [Nat.le_div_iff_mul_le hU, ← hu]
    have := hlow hj0
    rw [pow_add] at this
    calc 2 ^ mw T * (den * 2 ^ j) = den * (2 ^ mw T * 2 ^ j) := by ring
      _ ≤ N := this
  -- the rounded significand
  obtain ⟨k, hk⟩ : ∃ k, k = (if u < 2 * (N % u) ∨ (2 * (N % u) = u ∧ N / u % 2 = 1) then N / u + 1 else N / u) := ⟨_, rfl⟩
  have hk_le : k ≤ 2 ^ (mw T + 1) := by rw [hk]; split <;> omega
  have hk_ge : N / u ≤ k := by rw [hk]; split <;> omega
  have hk_j : k < 2 ^ mw T → j = 0 := by
    intro hlt
    by_contra hj0
    have := hnorm hj0
    omega
  have hcases : (k = N / u ∧ (2 * (N % u) < u ∨ (2 * (N % u) = u ∧ N / u % 2 = 0))) ∨
      (k = N / u + 1 ∧ (u < 2 * (N % u) ∨ (2 * (N % u) = u ∧ N / u % 2 = 1))) := by
    rw [hk]
    split <;> rename_i hc
    · exact .inr ⟨rfl, hc⟩
    · refine .inl ⟨rfl, ?_⟩
      omega
  have hrange : j * 2 ^ mw T + k < emaxField T * 2 ^ mw T := by
    have hov : unitsOf T (emaxField T * 2 ^ mw T) = 2 ^ (mw T + 1) * 2 ^ (emaxField T - 2) := by
      have e1 : emaxField T * 2 ^ mw T = (emaxField T - 2) * 2 ^ mw T + 2 ^ (mw T + 1) := by
        obtain ⟨c, hc⟩ : ∃ c, emaxField T = c + 2 := ⟨emaxField T - 2, by have := emaxField_pos T; omega⟩
        rw [hc, h2, Nat.add_sub_cancel]
        ring
      rw [e1, unitsOf_scaled T (le_refl _) (by omega)]
    have hmine := unitsOf_scaled T hk_le hk_j
    rw [← (unitsOf_strictMono T).lt_iff_lt, hmine, hov]
    by_contra hcon
    rw [Nat.not_lt] at hcon
    -- then the exact magnitude is at or above the threshold
    have hthr : 2 * overflowUnits T + 2 ^ (emaxField T - 2) = 2 * (2 ^ (mw T + 1) * 2 ^ (emaxField T - 2)) := by
      obtain ⟨c, hc⟩ : ∃ c, emaxField T = c + 3 := ⟨emaxField T - 3, by have := emaxField_pos T; omega⟩
      have e3 : 2 ^ (prec T + 1) = 2 * 2 ^ (mw T + 1) := by rw [prec, pow_succ]; ring
      have e4 : emaxField T - 2 = c + 1 := by omega
      have e5 : emaxField T - 3 = c := by omega
      rw [overflowUnits, e3, e4, e5]
      obtain ⟨w, hw⟩ : ∃ w, 2 * 2 ^ (mw T + 1) = w + 1 := ⟨2 * 2 ^ (mw T + 1) - 1, by have := Nat.one_le_two_pow (n := mw T + 1); omega⟩
      have e6 : 2 * (2 ^ (mw T + 1) * 2 ^ (c + 1)) = (2 * 2 ^ (mw T + 1)) * 2 ^ (c + 1) := by ring
      rw [e6, hw, Nat.add_sub_cancel, pow_succ]
      ring
    -- `2 * k * u ≤ 2 * N + u`
    have hup : 2 * (k * u) ≤ 2 * N + u := by
      rcases hcases with ⟨rfl, hc⟩ | ⟨rfl, hc⟩
      · rw [Nat.mul_comm (N / u) u]; omega
      · rw [Nat.add_mul, Nat.mul_comm (N / u) u]; omega
    by_cases hjbig : j ≤ emaxField T - 2
    · have hle : u ≤ den * 2 ^ (emaxField T - 2) := by
        rw [← hu]
        exact Nat.mul_le_mul_left _ (Nat.pow_le_pow_right (by norm_num) hjbig)
      have hge : den * (2 ^ (mw T + 1) * 2 ^ (emaxField T - 2)) ≤ k * u := by
        rw [← hu]
        calc den * (2 ^ (mw T + 1) * 2 ^ (emaxField T - 2)) ≤ den * (k * 2 ^ j) := Nat.mul_le_mul_left _ hcon
          _ = k * (den * 2 ^ j) := by ring
      have hd2 : 2 * (den * overflowUnits T) + den * 2 ^ (emaxField T - 2) =
          2 * (den * (2 ^ (mw T + 1) * 2 ^ (emaxField T - 2))) := by
        have e7 : 2 * (den * overflowUnits T) + den * 2 ^ (emaxField T - 2) =
            den * (2 * overflowUnits T + 2 ^ (emaxField T - 2)) := by ring
        rw [e7, hthr]
        ring
      omega
    · have hj0 : j ≠ 0 := by omega
      have hlowj := hlow hj0
      have h5 : 2 ^ (mw T + 1) * 2 ^ (emaxField T - 2) ≤ 2 ^ (mw T + j) := by
        rw [← pow_add]
        exact Nat.pow_le_pow_right (by norm_num) (by omega)
      have h6 : overflowUnits T ≤ 2 ^ (mw T + 1) * 2 ^ (emaxField T - 2) := by
        linarith [Nat.zero_le (2 ^ (emaxField T - 2))]
      have h7 : den * overflowUnits T ≤ den * 2 ^ (mw T + j) := Nat.mul_le_mul_left _ (le_trans h6 h5)
      omega
  have hrne : ∀ n, (rne T s num den : BitVec n) =
      if k = 2 ^ (mw T + 1) then pack T s (j + 2) 0 else if k < 2 ^ mw T then pack T s 0 k else pack T s (j + 1) (k - 2 ^ mw T) := by
    intro n
    unfold overflowUnits at h
    simp only [rne, hN]
    rw [if_neg (by omega), hj, hu, ← hk]
    rfl
  have hb1 : 2 * N ≤ (2 * k + 1) * u := by
    rcases hcases with ⟨rfl, hc⟩ | ⟨rfl, hc⟩
    · have : (2 * (N / u) + 1) * u = 2 * (u * (N / u)) + u := by ring
      omega
    · have : (2 * (N / u + 1) + 1) * u = 2 * (u * (N / u)) + 3 * u := by ring
      omega
  have hb2 : 2 * k * u ≤ 2 * N + u := by
    rcases hcases with ⟨rfl, hc⟩ | ⟨rfl, hc⟩
    · have : 2 * (N / u) * u = 2 * (u * (N / u)) := by ring
      omega
    · have : 2 * (N / u + 1) * u = 2 * (u * (N / u)) + 2 * u := by ring
      omega
  have ht1 : 2 * N = (2 * k + 1) * u → k % 2 = 0 := by
    rcases hcases with ⟨rfl, hc⟩ | ⟨rfl, hc⟩
    · have : (2 * (N / u) + 1) * u = 2 * (u * (N / u)) + u := by ring
      omega
    · have : (2 * (N / u + 1) + 1) * u = 2 * (u * (N / u)) + 3 * u := by ring
      omega
  have ht2 : 2 * k * u = 2 * N + u → k % 2 = 0 := by
    rcases hcases with ⟨rfl, hc⟩ | ⟨rfl, hc⟩
    · have : 2 * (N / u) * u = 2 * (u * (N / u)) := by ring
      omega
    · have : 2 * (N / u + 1) * u = 2 * (u * (N / u)) + 2 * u := by ring
      omega
  have heven : 2 ^ mw T % 2 = 0 := by
    obtain ⟨c, hc⟩ : ∃ c, mw T = c + 1 := ⟨mw T - 1, by have := mw_pos T; omega⟩
    rw [hc, pow_succ]
    omega
  rw [← hu] at hb1 hb2 ht1 ht2
  by_cases hc1 : k = 2 ^ (mw T + 1)
  · refine ⟨j, k, j + 2, 0, ?_, hp, fun n => by rw [hrne n, if_pos hc1], by rw [hc1, h2]; ring, hk_le, hk_j, by omega, hlow, hb1, hb2, ht1, ht2⟩
    rw [hc1, h2] at hrange
    have : (j + 2) * 2 ^ mw T < emaxField T * 2 ^ mw T := by linarith
    exact Nat.lt_of_mul_lt_mul_right this
  · by_cases hc2 : k < 2 ^ mw T
    · refine ⟨j, k, 0, k, by have := emaxField_pos T; omega, hc2, fun n => by rw [hrne n, if_neg hc1, if_pos hc2], by rw [hk_j hc2],
        hk_le, hk_j, rfl, hlow, hb1, hb2, ht1, ht2⟩
    · refine ⟨j, k, j + 1, k - 2 ^ mw T, ?_, by omega, fun n => by rw [hrne n, if_neg hc1, if_neg hc2], ?_, hk_le, hk_j, by omega, hlow,
        hb1, hb2, ht1, ht2⟩
      · have : (j + 1) * 2 ^ mw T < emaxField T * 2 ^ mw T := by
          have : (j + 1) * 2 ^ mw T = j * 2 ^ mw T + 2 ^ mw T := by ring
          omega
        exact Nat.lt_of_mul_lt_mul_right this
      · have : (j + 1) * 2 ^ mw T = j * 2 ^ mw T + 2 ^ mw T := by ring
        omega

/-! ### Tools for users of `rne` -/

/-- A multiple `k * U` within half of `U` of `N` is nearest to it among all multiples, and an equally near other one makes `k` even. -/
theorem nearest_multiple {N U k c : ℕ} (hU : 0 < U) (h1 : 2 * N ≤ (2 * k + 1) * U) (h2 : 2 * k * U ≤ 2 * N + U)
    (h3 : 2 * N = (2 * k + 1) * U → k % 2 = 0) (h4 : 2 * k * U = 2 * N + U → k % 2 = 0) :
    |(N : ℤ) - k * U| ≤ |(N : ℤ) - c * U| ∧ (k ≠ c → |(N : ℤ) - k * U| = |(N : ℤ) - c * U| → k % 2 = 0) := by
  have h1' : 2 * (N : ℤ) ≤ 2 * (k * U) + U := by
    have : (2 * N : ℤ) ≤ (2 * k + 1) * U := by exact_mod_cast h1
    linarith
  have h2' : 2 * ((k : ℤ) * U) ≤ 2 * N + U := by
    have : (2 * k * U : ℤ) ≤ 2 * N + U := by exact_mod_cast h2
    linarith
  have h3' : 2 * (N : ℤ) = 2 * (k * U) + U → k % 2 = 0 := fun h => h3 (by zify; linarith)
  have h4' : 2 * ((k : ℤ) * U) = 2 * N + U → k % 2 = 0 := fun h => h4 (by zify; linarith)
  have hU' : (0 : ℤ) < U := by exact_mod_cast hU
  have hlt : k < c → (k : ℤ) * U + U ≤ c * U := fun h => by
    have : (k : ℤ) + 1 ≤ c := by exact_mod_cast h
    nlinarith
  have hgt : c < k → (c : ℤ) * U + U ≤ k * U := fun h => by
    have : (c : ℤ) + 1 ≤ k := by exact_mod_cast h
    nlinarith
  rcases lt_trichotomy k c with h | rfl | h
  · have := hlt h
    generalize (k : ℤ) * U = K at *
    generalize (c : ℤ) * U = C at *
    rcases abs_cases ((N : ℤ) - K) with ⟨e1, _⟩ | ⟨e1, _⟩ <;> rcases abs_cases ((N : ℤ) - C) with ⟨e2, _⟩ | ⟨e2, _⟩ <;> rw [e1, e2] <;>
      refine ⟨by omega, fun _ h => ?_⟩ <;>
      exact (by omega : 2 * (N : ℤ) = 2 * K + U ∨ 2 * K = 2 * N + U).elim h3' h4'
  · exact ⟨le_refl _, fun h => absurd rfl h⟩
  · have := hgt h
    generalize (k : ℤ) * U = K at *
    generalize (c : ℤ) * U = C at *
    rcases abs_cases ((N : ℤ) - K) with ⟨e1, _⟩ | ⟨e1, _⟩ <;> rcases abs_cases ((N : ℤ) - C) with ⟨e2, _⟩ | ⟨e2, _⟩ <;> rw [e1, e2] <;>
      refine ⟨by omega, fun _ h => ?_⟩ <;>
      exact (by omega : 2 * (N : ℤ) = 2 * K + U ∨ 2 * K = 2 * N + U).elim h3' h4'

/-- A number's binade counted from the subnormal one. -/
theorem log2_binade {T : Tag} {q j : Nat} (hlow : j ≠ 0 → 2 ^ (mw T + j) ≤ q) (hhigh : q < 2 ^ (mw T + 1 + j)) :
    Nat.log2 q - mw T = j := by
  by_cases hj : j = 0
  · subst hj
    by_cases hq : q = 0
    · subst hq; simp
    · have := (Nat.log2_lt hq).2 hhigh
      omega
  · have hl := hlow hj
    have hq : q ≠ 0 := by
      have : 0 < 2 ^ (mw T + j) := by positivity
      omega
    have h1 := (Nat.log2_lt hq).2 hhigh
    have h2 := (Nat.le_log2 hq).2 hl
    omega

/-- `rne` from the binade of the magnitude: with `j` the binade (counted from the subnormal one), the magnitude bits are `j * 2^mw` plus
the quotient by the binade's unit in the last place, rounded by the remainder; a carry runs up to the infinity (R111, R112). -/
theorem rne_binade {n : Nat} {T : Tag} {s : Bool} {num den j : Nat} (hd : 0 < den)
    (hlow : j ≠ 0 → den * 2 ^ (mw T + j) ≤ num * 2 ^ unitScale T) (hhigh : num * 2 ^ unitScale T < den * 2 ^ (mw T + 1 + j))
    (hj : j + 2 ≤ emaxField T) :
    (rne T s num den : BitVec n) = BitVec.ofNat n (s.toNat * 2 ^ (ew T + mw T) + (j * 2 ^ mw T +
      (num * 2 ^ unitScale T / (den * 2 ^ j) +
        if den * 2 ^ j < 2 * (num * 2 ^ unitScale T % (den * 2 ^ j)) then 1
        else if 2 * (num * 2 ^ unitScale T % (den * 2 ^ j)) = den * 2 ^ j then num * 2 ^ unitScale T / (den * 2 ^ j) % 2 else 0))) := by
  generalize hN : num * 2 ^ unitScale T = N at *
  have hp : 0 < 2 ^ mw T := by positivity
  have h2 : 2 ^ (mw T + 1) = 2 * 2 ^ mw T := by rw [pow_succ]; ring
  have hU : 0 < den * 2 ^ j := by positivity
  have hlog : Nat.log2 (N / den) - mw T = j := by
    apply log2_binade
    · intro h
      rw [Nat.le_div_iff_mul_le hd, Nat.mul_comm]
      exact hlow h
    · rw [Nat.div_lt_iff_lt_mul hd, Nat.mul_comm]
      exact hhigh
  have hq : N / (den * 2 ^ j) < 2 ^ (mw T + 1) := by
    rw [Nat.div_lt_iff_lt_mul hU]
    calc N < den * 2 ^ (mw T + 1 + j) := hhigh
      _ = 2 ^ (mw T + 1) * (den * 2 ^ j) := by rw [pow_add]; ring
  have hnorm : j ≠ 0 → 2 ^ mw T ≤ N / (den * 2 ^ j) := by
    intro h
    rw [Nat.le_div_iff_mul_le hU]
    have := hlow h
    rw [pow_add] at this
    calc 2 ^ mw T * (den * 2 ^ j) = den * (2 ^ mw T * 2 ^ j) := by ring
      _ ≤ N := this
  by_cases hov : den * overflowUnits T ≤ N
  · -- the carry reaches the infinity
    rw [rne_overflow (by rw [hN]; exact hov)]
    obtain ⟨c, hc⟩ : ∃ c, emaxField T = c + 3 := ⟨emaxField T - 3, by have := emaxField_pos T; omega⟩
    have e3 : 2 ^ (prec T + 1) = 2 * 2 ^ (mw T + 1) := by rw [prec, pow_succ]; ring
    obtain ⟨w, hw⟩ : ∃ w, 2 ^ (mw T + 1) = w + 1 := ⟨2 ^ (mw T + 1) - 1, by have := Nat.one_le_two_pow (n := mw T + 1); omega⟩
    have hov' : den * ((2 * w + 1) * 2 ^ c) ≤ N := by
      have : overflowUnits T = (2 * w + 1) * 2 ^ c := by
        rw [overflowUnits, e3, hw, hc]
        congr 1
      rwa [this] at hov
    have hjc : j = c + 1 := by
      by_contra hne
      have hle : j ≤ c := by omega
      have h5 : den * 2 ^ (mw T + 1 + j) ≤ den * ((w + 1) * 2 ^ c) := by
        rw [pow_add, hw]
        exact Nat.mul_le_mul_left _ (Nat.mul_le_mul_left _ (Nat.pow_le_pow_right (by norm_num) hle))
      have h6 : den * ((w + 1) * 2 ^ c) ≤ den * ((2 * w + 1) * 2 ^ c) :=
        Nat.mul_le_mul_left _ (Nat.mul_le_mul_right _ (by omega))
      omega
    have hk : N / (den * 2 ^ j) + (if den * 2 ^ j < 2 * (N % (den * 2 ^ j)) then 1
        else if 2 * (N % (den * 2 ^ j)) = den * 2 ^ j then N / (den * 2 ^ j) % 2 else 0) = w + 1 := by
      have hdm := Nat.div_add_mod N (den * 2 ^ j)
      have hr := Nat.mod_lt N hU
      have hodd : w % 2 = 1 := by omega
      have hov2 : (2 * w + 1) * (den * 2 ^ j) ≤ 2 * N := by
        rw [hjc, pow_succ]
        calc (2 * w + 1) * (den * (2 ^ c * 2)) = 2 * (den * ((2 * w + 1) * 2 ^ c)) := by ring
          _ ≤ 2 * N := by omega
      rw [hw] at hq
      generalize den * 2 ^ j = u at *
      generalize N / u = q at *
      generalize N % u = r at *
      have hge : w ≤ q := by
        by_contra hlt
        have : (q + 1) * u ≤ w * u := Nat.mul_le_mul_right _ (by omega)
        have e8 : (q + 1) * u = u * q + u := by ring
        have e9 : (2 * w + 1) * u = 2 * (w * u) + u := by ring
        omega
      have hqw : q = w := by omega
      subst hqw
      have e9 : (2 * q + 1) * u = 2 * (u * q) + u := by ring
      split
      · rfl
      · split <;> omega
    rw [hk, hjc, pack, hc, ← hw, h2]
    congr 1
    ring
  · have hnov : ¬ den * ((2 ^ (prec T + 1) - 1) * 2 ^ (emaxField T - 3)) ≤ N := hov
    simp only [rne, hN]
    rw [if_neg hnov, hlog]
    generalize hq0 : N / (den * 2 ^ j) = q at *
    generalize N % (den * 2 ^ j) = r at *
    generalize den * 2 ^ j = u at *
    obtain ⟨k, hk⟩ : ∃ k, k = q + (if u < 2 * r then 1 else if 2 * r = u then q % 2 else 0) := ⟨_, rfl⟩
    have hk' : (if u < 2 * r ∨ 2 * r = u ∧ q % 2 = 1 then q + 1 else q) = k := by
      rw [hk]
      split_ifs <;> omega
    have hk1 : k ≤ 2 ^ (mw T + 1) := by rw [← hk']; split <;> omega
    have hk2 : q ≤ k := by rw [← hk']; split <;> omega
    rw [hk', ← hk]
    have hpr : 2 ^ prec T = 2 ^ (mw T + 1) := rfl
    rw [hpr]
    by_cases hc1 : k = 2 ^ (mw T + 1)
    · rw [if_pos hc1, hc1, h2, pack]
      congr 1
      ring
    · rw [if_neg hc1]
      by_cases hc2 : k < 2 ^ mw T
      · have : j = 0 := by
          by_contra h
          have := hnorm h
          omega
        rw [if_pos hc2, pack, this]
        congr 1
        ring
      · rw [if_neg hc2, pack]
        congr 1
        have : (j + 1) * 2 ^ mw T = j * 2 ^ mw T + 2 ^ mw T := by ring
        omega

/-- A pattern is finite when its magnitude bits are below the infinity's. -/
theorem isFinite_iff_bitsOf {n : Nat} {T : Tag} {x : BitVec n} : IsFinite T x ↔ bitsOf T x < emaxField T * 2 ^ mw T := by
  have h1 := fields_e_le T x
  have h2 := fields_m_lt T x
  rw [isFinite_iff, bitsOf]
  constructor
  · intro h
    have : (fields T x).e + 1 ≤ emaxField T := by omega
    calc (fields T x).e * 2 ^ mw T + (fields T x).m < ((fields T x).e + 1) * 2 ^ mw T := by rw [Nat.add_mul, Nat.one_mul]; omega
      _ ≤ _ := Nat.mul_le_mul_right _ this
  · rintro h he
    rw [he] at h
    omega

/-- A finite magnitude is below the overflow threshold. -/
theorem magUnits_lt_overflow {n : Nat} {T : Tag} {x : BitVec n} (hx : IsFinite T x) : magUnits T x < overflowUnits T := by
  obtain ⟨j, k, h1, h2, h3, h4⟩ := unitsOf_form T (bitsOf T x)
  have hb := isFinite_iff_bitsOf.1 hx
  have hE := emaxField_pos T
  have hp : 0 < 2 ^ mw T := by positivity
  rw [magUnits_eq_unitsOf, h4, overflowUnits]
  have hj : j ≤ emaxField T - 2 := by
    by_contra hlt
    have hk : 2 ^ mw T ≤ k := by
      by_contra hk
      have := h3 (by omega)
      omega
    have : (emaxField T - 1) * 2 ^ mw T ≤ j * 2 ^ mw T := Nat.mul_le_mul_right _ (by omega)
    have e1 : (emaxField T - 1) * 2 ^ mw T + 2 ^ mw T = emaxField T * 2 ^ mw T := by
      rw [← Nat.succ_mul]; congr 1; omega
    omega
  obtain ⟨c, hc⟩ : ∃ c, emaxField T = c + 3 := ⟨emaxField T - 3, by omega⟩
  have e3 : 2 ^ (prec T + 1) = 2 * 2 ^ (mw T + 1) := by rw [prec, pow_succ]; ring
  calc k * 2 ^ j ≤ k * 2 ^ (c + 1) := Nat.mul_le_mul_left _ (Nat.pow_le_pow_right (by norm_num) (by omega))
    _ = 2 * k * 2 ^ c := by rw [pow_succ]; ring
    _ < (2 ^ (prec T + 1) - 1) * 2 ^ (emaxField T - 3) := by
      rw [hc, e3]
      exact Nat.mul_lt_mul_of_pos_right (by omega) (by positivity)

/-- `rne` leaves a magnitude alone that a finite pattern has exactly. -/
theorem rne_exact {n : Nat} {T : Tag} (hn : n = patWidth T) {x : BitVec n} (hx : IsFinite T x) {num den : Nat} (hd : 0 < den)
    (h : num * 2 ^ unitScale T = den * magUnits T x) : (rne T (fields T x).s num den : BitVec n) = x := by
  have hlt : num * 2 ^ unitScale T < den * overflowUnits T := by
    rw [h]
    exact Nat.mul_lt_mul_of_pos_left (magUnits_lt_overflow hx) hd
  obtain ⟨j, k, e, m, he, hm, hr, hb, hk, hkj, -, hlow, h1, h2, -, -⟩ := rne_below (s := (fields T x).s) hd hlt
  obtain ⟨j', k', f1, f2, f3, f4⟩ := unitsOf_form T (bitsOf T x)
  rw [h, magUnits_eq_unitsOf, f4] at hlow h1 h2
  have hjj : j ≤ j' := by
    by_contra hlt'
    have hl := Nat.le_of_mul_le_mul_left (hlow (by omega)) hd
    have : k' * 2 ^ j' < 2 ^ (mw T + j) := by
      calc k' * 2 ^ j' < 2 ^ (mw T + 1) * 2 ^ j' := Nat.mul_lt_mul_of_pos_right f2 (by positivity)
        _ = 2 ^ (mw T + 1 + j') := by rw [← pow_add]
        _ ≤ _ := Nat.pow_le_pow_right (by norm_num) (by omega)
    omega
  obtain ⟨i, rfl⟩ : ∃ i, j' = j + i := ⟨j' - j, by omega⟩
  have hu : 0 < den * 2 ^ j := by positivity
  have e1 : den * (k' * 2 ^ (j + i)) = k' * 2 ^ i * (den * 2 ^ j) := by rw [pow_add]; ring
  rw [e1] at h1 h2
  have hkk : k = k' * 2 ^ i := by
    have g1 : 2 * (k' * 2 ^ i) ≤ 2 * k + 1 := Nat.le_of_mul_le_mul_right (by rw [Nat.mul_assoc]; exact h1) hu
    have g2 : 2 * k ≤ 2 * (k' * 2 ^ i) + 1 :=
      Nat.le_of_mul_le_mul_right (by rw [Nat.add_mul, Nat.mul_assoc 2 (k' * 2 ^ i), Nat.one_mul]; exact h2) hu
    omega
  have hbits : j * 2 ^ mw T + k = bitsOf T x := by
    apply (unitsOf_strictMono T).injective
    rw [unitsOf_scaled T hk hkj, f4, hkk, pow_add]
    ring
  rw [hr]
  have hs : fields T x = ⟨(fields T x).s, e, m⟩ := by
    have d1 := bitsOf_div T x
    have d2 := bitsOf_mod T x
    rw [← hbits, ← hb] at d1 d2
    rw [Nat.mul_comm, Nat.mul_add_div (by positivity), Nat.div_eq_of_lt hm] at d1
    rw [Nat.mul_comm, Nat.mul_add_mod, Nat.mod_eq_of_lt hm] at d2
    cases hf : fields T x
    rw [hf] at d1 d2
    simp_all
  conv_rhs => rw [← pack_fields hn x, hs]

/-- A significand of at most `p` bits at any power of two is some magnitude. -/
theorem exists_bits (T : Tag) (k j : Nat) (hk : k < 2 ^ (mw T + 1)) : ∃ c, unitsOf T c = k * 2 ^ j := by
  induction j generalizing k with
  | zero =>
    refine ⟨0 * 2 ^ mw T + k, unitsOf_scaled T hk.le (fun _ => rfl)⟩
  | succ j ih =>
    by_cases h : k < 2 ^ mw T
    · obtain ⟨c, hc⟩ := ih (2 * k) (by rw [pow_succ]; omega)
      exact ⟨c, by rw [hc, pow_succ]; ring⟩
    · exact ⟨(j + 1) * 2 ^ mw T + k, unitsOf_scaled T hk.le (fun h' => absurd h' h)⟩

/-- A significand of at most `p` bits at any power of two, not above a finite magnitude, is the magnitude of a finite pattern of either
sign. -/
theorem exists_pattern {n : Nat} {T : Tag} (hn : n = patWidth T) (s : Bool) {k j : Nat} (hk : k < 2 ^ (mw T + 1)) {y : BitVec n}
    (hy : IsFinite T y) (hle : k * 2 ^ j ≤ magUnits T y) : ∃ x : BitVec n, IsFinite T x ∧ (fields T x).s = s ∧ magUnits T x = k * 2 ^ j := by
  obtain ⟨c, hc⟩ := exists_bits T k j hk
  have hlt : c < emaxField T * 2 ^ mw T := by
    have := isFinite_iff_bitsOf.1 hy
    rw [magUnits_eq_unitsOf, ← hc] at hle
    have := (unitsOf_strictMono T).le_iff_le.1 hle
    omega
  have hp : 0 < 2 ^ mw T := by positivity
  have he : c / 2 ^ mw T < emaxField T := by rw [Nat.div_lt_iff_lt_mul hp]; exact hlt
  have hm : c % 2 ^ mw T < 2 ^ mw T := Nat.mod_lt _ hp
  have hf := fields_pack hn (s := s) (he.trans (emaxField_lt T)) hm
  refine ⟨pack T s (c / 2 ^ mw T) (c % 2 ^ mw T), isFinite_iff.2 (by rw [hf]; exact he.ne), by rw [hf], ?_⟩
  rw [magUnits_eq_unitsOf, bitsOf, hf, ← hc]
  simp only
  rw [Nat.mul_comm, Nat.div_add_mod]

end Sys2Proof.Machine
end

