-- ==== Sys2Proof/Laws/Codec.lean ====
section
/-! SUPPORT. The codec's functions by class (R113, R140, R146) and the rounding increment of R110 by the doubled remainder. -/

namespace Sys2Proof.Machine

/-- The exact narrowing of a NaN (R146). -/
theorem narrowExact_nan {n : Nat} {W T : Tag} {y : BitVec n} (h : classOf W y = .nan) :
    narrowExact W T y = nanNarrow W T y := by
  simp only [narrowExact, h]

/-- The exact narrowing of an infinity (R113). -/
theorem narrowExact_infinite {n : Nat} {W T : Tag} {y : BitVec n} (h : classOf W y = .infinite) :
    narrowExact W T y = pack T (fields W y).s (emaxField T) 0 := by
  simp only [narrowExact, h]

/-- The exact narrowing of a finite pattern (R113). -/
theorem narrowExact_finite {n : Nat} {W T : Tag} {y : BitVec n} (h : IsFinite W y) :
    narrowExact W T y = rne T (fields W y).s (magUnits W y) (2 ^ unitScale W) := by
  rcases h with h | h | h <;> simp only [narrowExact, h]

/-- The rounding increment compares twice the discarded bits with a whole unit (R110). -/
theorem rneInc_eq {q rem d : Nat} (hd : 0 < d) :
    rneInc q rem d = if 2 ^ d < 2 * rem then 1 else if 2 * rem = 2 ^ d then q % 2 else 0 := by
  obtain ⟨c, rfl⟩ : ∃ c, d = c + 1 := ⟨d - 1, by omega⟩
  unfold rneInc
  simp only [Nat.add_sub_cancel, pow_succ]
  split_ifs <;> omega

/-- A sign above fifteen bits is a sign above either 16-bit format's exponent and mantissa. -/
theorem signed15_eq (f : Fmt) (s : Bool) (q : Nat) :
    signed15 s q = BitVec.ofNat 16 (s.toNat * 2 ^ (ew f.tag + mw f.tag) + q) := by
  cases f <;> rfl

end Sys2Proof.Machine
end

