-- ==== Sys2Proof/Laws/State.lean ====
section
/-! SUPPORT. One lemma per field of the state for each operation that updates it: no later proof unfolds a record update. -/

namespace Sys2Proof.Machine

section Respond

@[simp] theorem respond_cap (resp : Response) (s : State) : (respond resp s).cap = s.cap := rfl
@[simp] theorem respond_featStd (resp : Response) (s : State) : (respond resp s).featStd = s.featStd := rfl
@[simp] theorem respond_hwAccelCap (resp : Response) (s : State) : (respond resp s).hwAccelCap = s.hwAccelCap := rfl
@[simp] theorem respond_resetPending (resp : Response) (s : State) : (respond resp s).resetPending = s.resetPending := rfl
@[simp] theorem respond_requests (resp : Response) (s : State) : (respond resp s).requests = s.requests := rfl
@[simp] theorem respond_schedule (resp : Response) (s : State) : (respond resp s).schedule = s.schedule := rfl
@[simp] theorem respond_port (resp : Response) (s : State) : (respond resp s).port = s.port := rfl
@[simp] theorem respond_out (resp : Response) (s : State) : (respond resp s).out = some resp := rfl
@[simp] theorem respond_delivered (resp : Response) (s : State) : (respond resp s).delivered = s.delivered ++ [⟨s.port, resp⟩] := rfl
@[simp] theorem respond_fault (resp : Response) (s : State) : (respond resp s).fault = s.fault := rfl
@[simp] theorem respond_draws (resp : Response) (s : State) : (respond resp s).draws = s.draws := rfl

end Respond

section RecordIllegalOp

@[simp] theorem recordIllegalOp_cap (s : State) : (recordIllegalOp s).cap = s.cap := rfl
@[simp] theorem recordIllegalOp_featStd (s : State) : (recordIllegalOp s).featStd = s.featStd := rfl
@[simp] theorem recordIllegalOp_hwAccelCap (s : State) : (recordIllegalOp s).hwAccelCap = s.hwAccelCap := rfl
@[simp] theorem recordIllegalOp_resetPending (s : State) : (recordIllegalOp s).resetPending = s.resetPending := rfl
@[simp] theorem recordIllegalOp_requests (s : State) : (recordIllegalOp s).requests = s.requests := rfl
@[simp] theorem recordIllegalOp_schedule (s : State) : (recordIllegalOp s).schedule = s.schedule := rfl
@[simp] theorem recordIllegalOp_port (s : State) : (recordIllegalOp s).port = s.port := rfl
@[simp] theorem recordIllegalOp_out (s : State) : (recordIllegalOp s).out = s.out := rfl
@[simp] theorem recordIllegalOp_delivered (s : State) : (recordIllegalOp s).delivered = s.delivered := rfl
@[simp] theorem recordIllegalOp_fault (s : State) : (recordIllegalOp s).fault = some (s.fault.getD (.illegalOp s.port.cmd)) := by
  unfold recordIllegalOp; cases s.fault <;> rfl
@[simp] theorem recordIllegalOp_draws (s : State) : (recordIllegalOp s).draws = s.draws := rfl

end RecordIllegalOp

section TakeReset

@[simp] theorem takeReset_cap (s : State) : (takeReset s).cap = sampledCap s.hwAccelCap := rfl
@[simp] theorem takeReset_featStd (s : State) : (takeReset s).featStd = s.featStd := rfl
@[simp] theorem takeReset_hwAccelCap (s : State) : (takeReset s).hwAccelCap = s.hwAccelCap := rfl
@[simp] theorem takeReset_resetPending (s : State) : (takeReset s).resetPending = false := rfl
@[simp] theorem takeReset_requests (s : State) : (takeReset s).requests = [] := rfl
@[simp] theorem takeReset_schedule (s : State) : (takeReset s).schedule = s.schedule := rfl
@[simp] theorem takeReset_port (s : State) : (takeReset s).port = s.port := rfl
@[simp] theorem takeReset_out (s : State) : (takeReset s).out = none := rfl
@[simp] theorem takeReset_delivered (s : State) : (takeReset s).delivered = s.delivered := rfl
@[simp] theorem takeReset_fault (s : State) : (takeReset s).fault = s.fault := rfl
@[simp] theorem takeReset_draws (s : State) : (takeReset s).draws = s.draws := rfl

end TakeReset

section HostReset

@[simp] theorem hostReset_cap (c : Option Bool) (s : State) : (hostReset c s).cap = s.cap := rfl
@[simp] theorem hostReset_featStd (c : Option Bool) (s : State) : (hostReset c s).featStd = s.featStd := rfl
@[simp] theorem hostReset_hwAccelCap (c : Option Bool) (s : State) : (hostReset c s).hwAccelCap = c := rfl
@[simp] theorem hostReset_resetPending (c : Option Bool) (s : State) : (hostReset c s).resetPending = true := rfl
@[simp] theorem hostReset_requests (c : Option Bool) (s : State) : (hostReset c s).requests = s.requests := rfl
@[simp] theorem hostReset_schedule (c : Option Bool) (s : State) : (hostReset c s).schedule = s.schedule := rfl
@[simp] theorem hostReset_port (c : Option Bool) (s : State) : (hostReset c s).port = s.port := rfl
@[simp] theorem hostReset_out (c : Option Bool) (s : State) : (hostReset c s).out = s.out := rfl
@[simp] theorem hostReset_delivered (c : Option Bool) (s : State) : (hostReset c s).delivered = s.delivered := rfl
@[simp] theorem hostReset_fault (c : Option Bool) (s : State) : (hostReset c s).fault = s.fault := rfl
@[simp] theorem hostReset_draws (c : Option Bool) (s : State) : (hostReset c s).draws = s.draws := rfl

end HostReset

section Answered

@[simp] theorem State.answered_cap (s : State) (r : Word64) (str : List Byte) : (s.answered r str).cap = s.cap := rfl
@[simp] theorem State.answered_featStd (s : State) (r : Word64) (str : List Byte) : (s.answered r str).featStd = s.featStd := rfl
@[simp] theorem State.answered_hwAccelCap (s : State) (r : Word64) (str : List Byte) : (s.answered r str).hwAccelCap = s.hwAccelCap := rfl
@[simp] theorem State.answered_resetPending (s : State) (r : Word64) (str : List Byte) : (s.answered r str).resetPending = s.resetPending := rfl
@[simp] theorem State.answered_requests (s : State) (r : Word64) (str : List Byte) : (s.answered r str).requests = s.requests := rfl
@[simp] theorem State.answered_schedule (s : State) (r : Word64) (str : List Byte) : (s.answered r str).schedule = s.schedule := rfl
@[simp] theorem State.answered_port (s : State) (r : Word64) (str : List Byte) : (s.answered r str).port = s.port := rfl
@[simp] theorem State.answered_out (s : State) (r : Word64) (str : List Byte) : (s.answered r str).out = some ⟨r, 0#1, str⟩ := rfl
@[simp] theorem State.answered_delivered (s : State) (r : Word64) (str : List Byte) : (s.answered r str).delivered = s.delivered ++ [⟨s.port, ⟨r, 0#1, str⟩⟩] := rfl
@[simp] theorem State.answered_fault (s : State) (r : Word64) (str : List Byte) : (s.answered r str).fault = s.fault := rfl
@[simp] theorem State.answered_draws (s : State) (r : Word64) (str : List Byte) : (s.answered r str).draws = s.draws := rfl

end Answered

section Illegal

@[simp] theorem State.illegal_cap (s : State) : (s.illegal).cap = s.cap := rfl
@[simp] theorem State.illegal_featStd (s : State) : (s.illegal).featStd = s.featStd := rfl
@[simp] theorem State.illegal_hwAccelCap (s : State) : (s.illegal).hwAccelCap = s.hwAccelCap := rfl
@[simp] theorem State.illegal_resetPending (s : State) : (s.illegal).resetPending = s.resetPending := rfl
@[simp] theorem State.illegal_requests (s : State) : (s.illegal).requests = s.requests := rfl
@[simp] theorem State.illegal_schedule (s : State) : (s.illegal).schedule = s.schedule := rfl
@[simp] theorem State.illegal_port (s : State) : (s.illegal).port = s.port := rfl
@[simp] theorem State.illegal_out (s : State) : (s.illegal).out = some ⟨0, 1#1, []⟩ := rfl
@[simp] theorem State.illegal_delivered (s : State) : (s.illegal).delivered = s.delivered ++ [⟨s.port, ⟨0, 1#1, []⟩⟩] := rfl
@[simp] theorem State.illegal_fault (s : State) : (s.illegal).fault = some (s.fault.getD (.illegalOp s.port.cmd)) := rfl
@[simp] theorem State.illegal_draws (s : State) : (s.illegal).draws = s.draws := rfl

end Illegal

end Sys2Proof.Machine
end

