-- ==== Sys2Proof/Laws/Ops.lean ====
section
/-! SUPPORT. What each shared operation can do, said once: presenting a request, hardware dispatch, the answers of each result kind, the
illegal-command exception, and the step. Later proofs cite these and do not unfold the operations. -/

namespace Sys2Proof.Machine

/-! ### Presenting a request -/

/-- The oldest request of a requester is the first of its requests; the others keep their order. -/
theorem takeOldest_eq_some {who : Nat} {l : List Request} {p : Request × List Request} (h : takeOldest who l = some p) :
    ∃ pre post, l = pre ++ p.1 :: post ∧ p.2 = pre ++ post ∧ p.1.requester = who ∧ ∀ r ∈ pre, r.requester ≠ who := by
  induction l generalizing p with
  | nil => simp [takeOldest] at h
  | cons q qs ih =>
    by_cases hq : q.requester = who
    · simp only [takeOldest, hq, if_true, Option.some.injEq] at h
      subst h
      exact ⟨[], qs, rfl, rfl, hq, by simp⟩
    · simp only [takeOldest, hq, if_false, Option.map_eq_some_iff] at h
      obtain ⟨p', hp', rfl⟩ := h
      obtain ⟨pre, post, h1, h2, h3, h4⟩ := ih hp'
      exact ⟨q :: pre, post, by simp [h1], by simp [h2], h3, by simpa [hq] using h4⟩

/-- A requester with a waiting request has an oldest one. -/
theorem takeOldest_isSome {who : Nat} {l : List Request} (h : ∃ q ∈ l, q.requester = who) : ∃ p, takeOldest who l = some p := by
  induction l with
  | nil => simp at h
  | cons q qs ih =>
    by_cases hq : q.requester = who
    · exact ⟨(q, qs), by simp [takeOldest, hq]⟩
    · obtain ⟨r, hr, hw⟩ := h
      have : r ∈ qs := by
        rcases List.mem_cons.1 hr with rfl | h'
        · exact absurd hw hq
        · exact h'
      obtain ⟨p, hp⟩ := ih ⟨r, this, hw⟩
      exact ⟨(p.1, q :: p.2), by simp [takeOldest, hq, hp]⟩

/-- With no request waiting, none is presented. -/
theorem presentRequest_of_nil {s : State} (h : s.requests = []) : presentRequest s = none := by
  simp [presentRequest, servedRequester, h]

/-- With requests waiting, one is presented: the oldest of its requester; with the schedule used up, the oldest of all. -/
theorem presentRequest_of_ne_nil {s : State} (h : s.requests ≠ []) :
    ∃ pre q post, s.requests = pre ++ q :: post ∧ (∀ r ∈ pre, r.requester ≠ q.requester) ∧
      presentRequest s = some { s with port := q, requests := pre ++ post, schedule := s.schedule.tail } ∧
      (s.schedule = [] → pre = []) := by
  have hlen : 0 < s.requests.length := List.length_pos_iff.2 h
  have hlt : s.schedule.headD 0 % s.requests.length < s.requests.length := Nat.mod_lt _ hlen
  have hserved : servedRequester s = some (s.requests[s.schedule.headD 0 % s.requests.length]).requester := by
    rw [servedRequester, List.getElem?_eq_getElem hlt, Option.map_some]
  obtain ⟨p, hp⟩ := takeOldest_isSome (who := (s.requests[s.schedule.headD 0 % s.requests.length]).requester)
    ⟨_, List.getElem_mem hlt, rfl⟩
  obtain ⟨pre, post, h1, h2, h3, h4⟩ := takeOldest_eq_some hp
  refine ⟨pre, p.1, post, h1, by simpa [h3] using h4, ?_, ?_⟩
  · simp only [presentRequest, hserved, hp, Option.map_some, h2]
  · intro hs
    cases pre with
    | nil => rfl
    | cons r rs =>
      refine absurd ?_ (h4 r (by simp))
      simp [hs, h1]

/-- What presenting a request changes: the ports, the waiting list and the schedule. -/
theorem presentRequest_eq_some {s t : State} (h : presentRequest s = some t) :
    ∃ pre q post, s.requests = pre ++ q :: post ∧ (∀ r ∈ pre, r.requester ≠ q.requester) ∧
      t = { s with port := q, requests := pre ++ post, schedule := s.schedule.tail } := by
  have hne : s.requests ≠ [] := by
    intro h0
    simp [presentRequest_of_nil h0] at h
  obtain ⟨pre, q, post, h1, h2, h3, -⟩ := presentRequest_of_ne_nil hne
  exact ⟨pre, q, post, h1, h2, by simpa [h3] using h.symm⟩

/-! ### Hardware dispatch (R115) -/

/-- On the portable path the result is the portable one. -/
theorem hwDispatch_portable {n : Nat} {T : Tag} {p : BitVec n} {s : State} (h : s.cap = 0#1) : hwDispatch T p s = (p, s) := by
  simp [hwDispatch, h]

/-- A result that is not NaN is the portable one on both paths. -/
theorem hwDispatch_not_nan {n : Nat} {T : Tag} {p : BitVec n} {s : State} (h : classOf T p ≠ .nan) :
    hwDispatch T p s = (p, s) := by
  simp [hwDispatch, h]

/-- A NaN result on the hardware path takes a drawn mantissa. -/
theorem hwDispatch_nan {n : Nat} {T : Tag} {p : BitVec n} {s : State} (hc : s.cap = 1#1) (h : classOf T p = .nan) :
    hwDispatch T p s =
      (pack T (fields T p).s (emaxField T) (nanDraw (mw T) s.draws), { s with draws := s.draws + 1 }) := by
  simp [hwDispatch, hc, h]

/-- A drawn mantissa is not 0 and fits its field (R6). -/
theorem nanDraw_bounds {w k : Nat} (hw : 0 < w) : 0 < nanDraw w k ∧ nanDraw w k < 2 ^ w := by
  have h1 : 1 < 2 ^ w := Nat.one_lt_two_pow (by omega)
  have h2 : Config.nanDrawRaw w k % (2 ^ w - 1) < 2 ^ w - 1 := Nat.mod_lt _ (by omega)
  unfold nanDraw
  omega

/-! ### Responses -/

/-- An answer changes the response and the deliveries and nothing else. -/
theorem answer_eq (r : Word64) (s : State) : answer r s = .next (s.answered r []) := rfl

/-- An answer with a string carries its byte count. -/
theorem answerStr_eq (str : List Byte) (s : State) :
    answerStr str s = .next (s.answered (BitVec.ofNat 64 str.length) str) := rfl

/-- Taking IllegalOp (R301). -/
theorem takeIllegalOp_eq (s : State) : takeIllegalOp s = .next s.illegal := by
  unfold takeIllegalOp recordIllegalOp State.illegal respond errIllegalOp
  cases s.fault <;> rfl

/-- A result of kind v16, f32 or f64 answers the portable result or, for a NaN on the hardware path, its sign and exponent with a drawn
non-zero mantissa (R115). -/
theorem answer_hwDispatch {n : Nat} {T : Tag} (hT : 0 < mw T) (p : BitVec n) (s : State) :
    (answer ((hwDispatch T p s).1.setWidth 64) (hwDispatch T p s).2 = .next (s.answered (p.setWidth 64) []) ∧
      ¬ (s.cap = 1#1 ∧ classOf T p = .nan)) ∨
    (s.cap = 1#1 ∧ classOf T p = .nan ∧ ∃ m, 0 < m ∧ m < 2 ^ mw T ∧
      answer ((hwDispatch T p s).1.setWidth 64) (hwDispatch T p s).2 =
        .next { s.answered ((pack T (fields T p).s (emaxField T) m : BitVec n).setWidth 64) [] with draws := s.draws + 1 }) := by
  by_cases h : s.cap = 1#1 ∧ classOf T p = .nan
  · refine .inr ⟨h.1, h.2, nanDraw (mw T) s.draws, (nanDraw_bounds hT).1, (nanDraw_bounds hT).2, ?_⟩
    rw [hwDispatch_nan h.1 h.2]
    rfl
  · refine .inl ⟨?_, h⟩
    rw [hwDispatch, if_neg h]
    rfl

/-- An instruction that answers a dispatched result does what R115 says of that result. -/
theorem dispatched_of_exec {n : Nat} {T : Tag} (hT : 0 < mw T) {p : BitVec n} {i : Instr} {s : State}
    (h : exec i s = answer ((hwDispatch T p s).1.setWidth 64) (hwDispatch T p s).2) : Dispatched T p i s := by
  unfold Dispatched
  rcases answer_hwDispatch hT p s with ⟨h1, h2⟩ | ⟨h1, h2, m, h3, h4, h5⟩
  · rw [if_neg h2, h, h1]
  · rw [if_pos ⟨h1, h2⟩]
    exact ⟨m, h3, h4, by rw [h, h5]⟩

/-! ### The step -/

/-- A raised reset is carried out. -/
theorem step_reset {s : State} (h : s.resetPending = true) : step s = .next (takeReset s) := by
  simp [step, h]

/-- With nothing to do the state stays. -/
theorem step_idle {s : State} (h : s.resetPending = false) (hq : s.requests = []) : step s = .next s := by
  simp [step, h, presentRequest_of_nil hq]

/-- A presented request is decoded and served. -/
theorem step_serve {s t : State} (h : s.resetPending = false) (ht : presentRequest s = some t) :
    step s = (match decode t.port.cmd with | .ok i => exec i t | .error _ => takeIllegalOp t) := by
  unfold step
  rw [h, ht]
  rfl

/-- Everything a step can be: a reset, nothing, or one presented request served. -/
theorem step_cases (s : State) :
    (s.resetPending = true ∧ step s = .next (takeReset s)) ∨
    (s.resetPending = false ∧ s.requests = [] ∧ step s = .next s) ∨
    (s.resetPending = false ∧ ∃ t, presentRequest s = some t ∧
      ((∃ i, decode t.port.cmd = .ok i ∧ step s = exec i t) ∨ (∃ e, decode t.port.cmd = .error e ∧ step s = .next t.illegal))) := by
  cases h : s.resetPending with
  | true => exact .inl ⟨rfl, step_reset h⟩
  | false =>
    by_cases hq : s.requests = []
    · exact .inr (.inl ⟨rfl, hq, step_idle h hq⟩)
    · obtain ⟨pre, q, post, -, -, hp, -⟩ := presentRequest_of_ne_nil hq
      refine .inr (.inr ⟨rfl, _, hp, ?_⟩)
      have hs := step_serve h hp
      rcases hd : decode q.cmd with e | i
      · exact .inr ⟨e, rfl, by simpa [hd, takeIllegalOp_eq] using hs⟩
      · exact .inl ⟨i, rfl, by simpa [hd] using hs⟩

/-- A run of one step more, after a step that answers a next state. -/
theorem run_succ_of_next {s t : State} {k : Nat} (h : step s = .next t) : Sys2Proof.core.run (k + 1) s = Sys2Proof.core.run k t := by
  have h' : Sys2Proof.core.step s = .next t := h
  simp only [Host.Core.run, h']

end Sys2Proof.Machine
end

