-- ==== Sys2Proof/Laws/Order.lean ====
section
/-! SUPPORT. The order of values (R226) by whole units: patterns that are not NaN have their extended values in the order of their signed
units, and a 16-bit pattern's signed units follow its sign and magnitude bits (R109). -/

namespace Sys2Proof.Machine

/-- A 16-bit pattern's magnitude bits are its exponent and mantissa fields as one number. -/
theorem bitsOf_eq_magBits (f : Fmt) (a : Pat16) : bitsOf f.tag a = magBits a := magBits_eq f a

theorem magUnits_eq_magBits (f : Fmt) (a : Pat16) : magUnits f.tag a = unitsOf f.tag (magBits a) := by
  rw [magUnits_eq_unitsOf, bitsOf_eq_magBits]

/-- Magnitudes are in the order of the magnitude bits. -/
theorem magUnits_lt_iff (f : Fmt) (a b : Pat16) : magUnits f.tag a < magUnits f.tag b ↔ magBits a < magBits b := by
  rw [magUnits_eq_magBits, magUnits_eq_magBits]
  exact (unitsOf_strictMono f.tag).lt_iff_lt

/-- A magnitude is 0 when its bits are. -/
theorem magUnits_eq_zero (f : Fmt) (a : Pat16) : magUnits f.tag a = 0 ↔ magBits a = 0 := by
  have h0 : unitsOf f.tag 0 = 0 := by simp [unitsOf]
  rw [magUnits_eq_magBits]
  conv_lhs => rw [← h0]
  exact (unitsOf_strictMono f.tag).injective.eq_iff

/-- The extended value of an infinity. -/
theorem extValue_infinite {f : Fmt} {a : Pat16} (h : IsInf16 f a) :
    extValue f.tag a = if sign16 a then ⊥ else ((⊤ : WithTop ℚ) : WithBot (WithTop ℚ)) := by
  rw [extValue, if_pos ((isInf16_iff f a).2 h), sign16_eq]

/-- The extended value of a finite pattern. -/
theorem extValue_finite {f : Fmt} {a : Pat16} (h : ¬ IsInf16 f a) :
    extValue f.tag a = ((value f.tag a : WithTop ℚ) : WithBot (WithTop ℚ)) := by
  rw [extValue, if_neg (fun g => h ((isInf16_iff f a).1 g))]

/-- A pattern that is neither NaN nor infinite is finite. -/
theorem isFinite_of_not {f : Fmt} {a : Pat16} (h1 : ¬ IsNaN16 f a) (h2 : ¬ IsInf16 f a) : IsFinite f.tag a := by
  rw [isFinite16_iff]
  unfold IsNaN16 at h1
  unfold IsInf16 at h2
  omega

/-- The order of values is the order of signed units, an infinity's units lying outside the finite ones (R226). -/
theorem extValue_lt_iff {f : Fmt} {a b : Pat16} (ha : ¬ IsNaN16 f a) (hb : ¬ IsNaN16 f b) :
    extValue f.tag a < extValue f.tag b ↔ signedUnits f.tag a < signedUnits f.tag b := by
  have hu := unitValue_pos f.tag
  have hsign : ∀ x, signedUnits f.tag x = if sign16 x then -(magUnits f.tag x : ℤ) else (magUnits f.tag x : ℤ) := by
    intro x
    rw [signedUnits, sign16_eq]
  have hinf0 : 0 < infBits f := by cases f <;> decide
  have hinf : ∀ x y : Pat16, IsInf16 f x → ¬ IsNaN16 f y → ¬ IsInf16 f y → magUnits f.tag y < magUnits f.tag x := by
    intro x y hx hy1 hy2
    rw [magUnits_lt_iff]
    unfold IsInf16 at *
    unfold IsNaN16 at *
    omega
  by_cases h1 : IsInf16 f a <;> by_cases h2 : IsInf16 f b
  · have hm : magUnits f.tag a = magUnits f.tag b := by rw [magUnits_eq_magBits, magUnits_eq_magBits, h1, h2]
    have hp : 0 < magUnits f.tag b := by
      refine Nat.pos_of_ne_zero fun h => ?_
      have := (magUnits_eq_zero f b).1 h
      unfold IsInf16 at h2
      omega
    rw [extValue_infinite h1, extValue_infinite h2, hsign, hsign, hm]
    cases sign16 a <;> cases sign16 b <;> simp
    omega
  · have := hinf a b h1 hb h2
    rw [extValue_infinite h1, extValue_finite h2, hsign, hsign]
    cases sign16 a <;> cases sign16 b <;> simp [WithBot.bot_lt_coe] <;> omega
  · have := hinf b a h2 ha h1
    have htop : ((value f.tag a : WithTop ℚ) : WithBot (WithTop ℚ)) < ((⊤ : WithTop ℚ) : WithBot (WithTop ℚ)) :=
      WithBot.coe_lt_coe.2 (WithTop.coe_lt_top _)
    rw [extValue_finite h1, extValue_infinite h2, hsign, hsign]
    cases sign16 b with
    | true =>
      cases sign16 a <;> simp
      omega
    | false => cases sign16 a <;> simp only [Bool.false_eq_true, if_false, if_true, htop, true_iff] <;> omega
  · rw [extValue_finite h1, extValue_finite h2, WithBot.coe_lt_coe, WithTop.coe_lt_coe,
      value_eq_signedUnits (isFinite_of_not ha h1), value_eq_signedUnits (isFinite_of_not hb h2), mul_lt_mul_iff_left₀ hu, Int.cast_lt]

/-- Equal values are equal signed units (R226). -/
theorem extValue_eq_iff {f : Fmt} {a b : Pat16} (ha : ¬ IsNaN16 f a) (hb : ¬ IsNaN16 f b) :
    extValue f.tag a = extValue f.tag b ↔ signedUnits f.tag a = signedUnits f.tag b := by
  have h1 := extValue_lt_iff ha hb
  have h2 := extValue_lt_iff hb ha
  constructor
  · intro h
    rw [h, lt_self_iff_false, false_iff] at h1
    rw [h, lt_self_iff_false, false_iff] at h2
    omega
  · intro h
    rw [h, lt_self_iff_false, iff_false] at h1
    rw [h, lt_self_iff_false, iff_false] at h2
    exact le_antisymm (not_lt.1 h2) (not_lt.1 h1)

end Sys2Proof.Machine
end

