-- ==== Sys2Proof/Laws/PerInstr.lean ====
section
/-! SUPPORT. One fact about every instruction as syntax: where its fields stand in its command word (R60, R64). -/

namespace Sys2Proof.Laws.Encoding

/-- Bit 7 of an instruction's command word is its format's F bit (0 binary16, 1 bfloat16), and bits 6 to 0 are its OP number, which is
below 0x2A. -/
def Statement (i : Instr) : Prop :=
  (encode i).getLsbD 7 = decide (i.fmt = .bf) ∧ (encode i).toNat % 0x80 = opNumber i ∧ opNumber i < 0x2A

theorem frombits (f : Fmt) : Statement (.frombits f) := by
  cases f <;> exact ⟨rfl, rfl, by decide⟩

theorem tobits (f : Fmt) : Statement (.tobits f) := by
  cases f <;> exact ⟨rfl, rfl, by decide⟩

theorem fromf32 (f : Fmt) : Statement (.fromf32 f) := by
  cases f <;> exact ⟨rfl, rfl, by decide⟩

theorem fromf64 (f : Fmt) : Statement (.fromf64 f) := by
  cases f <;> exact ⟨rfl, rfl, by decide⟩

theorem tof32 (f : Fmt) : Statement (.tof32 f) := by
  cases f <;> exact ⟨rfl, rfl, by decide⟩

theorem tof64 (f : Fmt) : Statement (.tof64 f) := by
  cases f <;> exact ⟨rfl, rfl, by decide⟩

theorem fromi64 (f : Fmt) : Statement (.fromi64 f) := by
  cases f <;> exact ⟨rfl, rfl, by decide⟩

theorem fromu64 (f : Fmt) : Statement (.fromu64 f) := by
  cases f <;> exact ⟨rfl, rfl, by decide⟩

theorem isnan (f : Fmt) : Statement (.isnan f) := by
  cases f <;> exact ⟨rfl, rfl, by decide⟩

theorem isinf (f : Fmt) : Statement (.isinf f) := by
  cases f <;> exact ⟨rfl, rfl, by decide⟩

theorem isfinite (f : Fmt) : Statement (.isfinite f) := by
  cases f <;> exact ⟨rfl, rfl, by decide⟩

theorem issignneg (f : Fmt) : Statement (.issignneg f) := by
  cases f <;> exact ⟨rfl, rfl, by decide⟩

theorem classify (f : Fmt) : Statement (.classify f) := by
  cases f <;> exact ⟨rfl, rfl, by decide⟩

theorem add (f : Fmt) : Statement (.add f) := by
  cases f <;> exact ⟨rfl, rfl, by decide⟩

theorem sub (f : Fmt) : Statement (.sub f) := by
  cases f <;> exact ⟨rfl, rfl, by decide⟩

theorem mul (f : Fmt) : Statement (.mul f) := by
  cases f <;> exact ⟨rfl, rfl, by decide⟩

theorem div (f : Fmt) : Statement (.div f) := by
  cases f <;> exact ⟨rfl, rfl, by decide⟩

theorem rem (f : Fmt) : Statement (.rem f) := by
  cases f <;> exact ⟨rfl, rfl, by decide⟩

theorem neg (f : Fmt) : Statement (.neg f) := by
  cases f <;> exact ⟨rfl, rfl, by decide⟩

theorem eq (f : Fmt) : Statement (.eq f) := by
  cases f <;> exact ⟨rfl, rfl, by decide⟩

theorem ne (f : Fmt) : Statement (.ne f) := by
  cases f <;> exact ⟨rfl, rfl, by decide⟩

theorem lt (f : Fmt) : Statement (.lt f) := by
  cases f <;> exact ⟨rfl, rfl, by decide⟩

theorem le (f : Fmt) : Statement (.le f) := by
  cases f <;> exact ⟨rfl, rfl, by decide⟩

theorem gt (f : Fmt) : Statement (.gt f) := by
  cases f <;> exact ⟨rfl, rfl, by decide⟩

theorem ge (f : Fmt) : Statement (.ge f) := by
  cases f <;> exact ⟨rfl, rfl, by decide⟩

theorem totalcmp (f : Fmt) : Statement (.totalcmp f) := by
  cases f <;> exact ⟨rfl, rfl, by decide⟩

theorem min (f : Fmt) : Statement (.min f) := by
  cases f <;> exact ⟨rfl, rfl, by decide⟩

theorem max (f : Fmt) : Statement (.max f) := by
  cases f <;> exact ⟨rfl, rfl, by decide⟩

theorem minimum (f : Fmt) : Statement (.minimum f) := by
  cases f <;> exact ⟨rfl, rfl, by decide⟩

theorem maximum (f : Fmt) : Statement (.maximum f) := by
  cases f <;> exact ⟨rfl, rfl, by decide⟩

theorem fmtbits (f : Fmt) : Statement (.fmtbits f) := by
  cases f <;> exact ⟨rfl, rfl, by decide⟩

theorem fmtdec (f : Fmt) : Statement (.fmtdec f) := by
  cases f <;> exact ⟨rfl, rfl, by decide⟩

end Sys2Proof.Laws.Encoding
end

