-- ==== Sys2Proof/Laws/Text.lean ====
section
/-! SUPPORT. Decimal digits, reading a decimal number back (R263 (3)), and the exact text of a finite pattern, which reads back as that
pattern. -/

namespace Sys2Proof.Machine

/-! ### Digits -/

/-- The character of a decimal digit. -/
theorem toNat_digit {d : Nat} (h : d < 10) : (BitVec.ofNat 8 (0x30 + d)).toNat = 0x30 + d := by
  rw [BitVec.toNat_ofNat]
  omega

theorem isDigit_iff {c : Byte} : isDigit c = true ↔ 0x30 ≤ c.toNat ∧ c.toNat ≤ 0x39 := by simp [isDigit]

/-- The value of digits read after others. -/
theorem foldl_digits (cs : List Byte) (v : Nat) :
    cs.foldl (fun acc c => acc * 10 + (c.toNat - 0x30)) v = v * 10 ^ cs.length + digitsValue cs := by
  unfold digitsValue
  induction cs generalizing v with
  | nil => simp
  | cons c cs ih =>
    rw [List.foldl_cons, List.foldl_cons, ih, ih (0 * 10 + (c.toNat - 0x30)), List.length_cons, pow_succ]
    ring

theorem digitsValue_cons (c : Byte) (cs : List Byte) :
    digitsValue (c :: cs) = (c.toNat - 0x30) * 10 ^ cs.length + digitsValue cs := by
  have := foldl_digits cs (0 * 10 + (c.toNat - 0x30))
  simpa [digitsValue] using this

/-- What `digitsAux` puts before `acc`: digits, at least one, with the value of `n` when the fuel suffices. -/
theorem digitsAux_eq (fuel n : Nat) (acc : List Byte) (h : n < 10 ^ fuel) (hf : 0 < fuel) :
    ∃ ds, digitsAux fuel n acc = ds ++ acc ∧ ds ≠ [] ∧ (∀ c ∈ ds, isDigit c = true) ∧ digitsValue ds = n ∧ ds.length ≤ fuel := by
  induction fuel generalizing n acc with
  | zero => omega
  | succ fuel ih =>
    have hd : n % 10 < 10 := Nat.mod_lt _ (by norm_num)
    have hdig : isDigit (BitVec.ofNat 8 (0x30 + n % 10)) = true := by
      rw [isDigit_iff, toNat_digit hd]
      omega
    unfold digitsAux
    simp only
    split
    · refine ⟨[BitVec.ofNat 8 (0x30 + n % 10)], rfl, by simp, by simpa using hdig, ?_, by simp⟩
      rw [digitsValue_cons, toNat_digit hd]
      simp [digitsValue]
      omega
    · have hq : n / 10 < 10 ^ fuel := by
        rw [Nat.div_lt_iff_lt_mul (by norm_num)]
        rwa [pow_succ] at h
      have hf' : 0 < fuel := by
        rcases Nat.eq_zero_or_pos fuel with rfl | h'
        · simp at hq
          omega
        · exact h'
      obtain ⟨ds, h1, -, h3, h4, h5⟩ := ih (n / 10) (BitVec.ofNat 8 (0x30 + n % 10) :: acc) hq hf'
      refine ⟨ds ++ [BitVec.ofNat 8 (0x30 + n % 10)], by rw [h1]; simp, by simp, ?_, ?_, by simpa using h5⟩
      · intro c hc
        rcases List.mem_append.1 hc with hc | hc
        · exact h3 c hc
        · rw [List.mem_singleton.1 hc]
          exact hdig
      · unfold digitsValue at h4 ⊢
        rw [List.foldl_append, h4, List.foldl_cons, List.foldl_nil, toNat_digit hd]
        omega

/-- The digits of a number: at least one, all digits, with its value. -/
theorem natDigits_spec (n : Nat) :
    natDigits n ≠ [] ∧ (∀ c ∈ natDigits n, isDigit c = true) ∧ digitsValue (natDigits n) = n ∧
      (natDigits n).length ≤ Nat.log2 n + 1 := by
  have h : n < 10 ^ (Nat.log2 n + 1) := by
    calc n < 2 ^ (Nat.log2 n + 1) := Nat.lt_log2_self
      _ ≤ 10 ^ (Nat.log2 n + 1) := Nat.pow_le_pow_left (by norm_num) _
  obtain ⟨ds, h1, h2, h3, h4, h5⟩ := digitsAux_eq _ n [] h (by omega)
  rw [natDigits, h1, List.append_nil]
  exact ⟨h2, h3, h4, h5⟩

/-! ### Reading a number back -/

/-- The digits at the front of a text end where it goes on with another character. -/
theorem spanDigits_append {ds rest : List Byte} (h : ∀ c ∈ ds, isDigit c = true) (hr : ∀ c, rest.head? = some c → isDigit c = false) :
    spanDigits (ds ++ rest) = (ds, rest) := by
  induction ds with
  | nil =>
    cases rest with
    | nil => rfl
    | cons c cs => simp [spanDigits, hr c rfl]
  | cons c cs ih =>
    have := ih (fun x hx => h x (List.mem_cons_of_mem _ hx))
    simp [spanDigits, h c (List.mem_cons_self ..), this]

/-- A text that begins with a digit has no other character at its front. -/
theorem dropChar_digit {x : Byte} {ds rest : List Byte} (hne : ds ≠ []) (h : ∀ c ∈ ds, isDigit c = true) (hx : isDigit x = false) :
    dropChar x (ds ++ rest) = (false, ds ++ rest) := by
  cases ds with
  | nil => exact absurd rfl hne
  | cons c cs =>
    have hc := h c (List.mem_cons_self ..)
    have : c ≠ x := by
      rintro rfl
      rw [hc] at hx
      cases hx
    simp [dropChar, this]

/-- A number of the form `-<digits>e-<digits>`, the sign optional, reads back as those digits and that exponent. -/
theorem parseDecimal_scientific (neg : Bool) {ds es : List Byte} (hd : ds ≠ []) (hds : ∀ c ∈ ds, isDigit c = true) (he : es ≠ [])
    (hes : ∀ c ∈ es, isDigit c = true) :
    parseDecimal ((if neg then [0x2D#8] else []) ++ ds ++ [0x65#8, 0x2D#8] ++ es) =
      some ⟨neg, digitsValue ds, 0, -(digitsValue es : Int)⟩ := by
  have h1 : dropChar 0x2D#8 ((if neg then [0x2D#8] else []) ++ ds ++ [0x65#8, 0x2D#8] ++ es) =
      (neg, ds ++ ([0x65#8, 0x2D#8] ++ es)) := by
    cases neg with
    | true => simp [dropChar]
    | false =>
      have := dropChar_digit (x := 0x2D#8) (rest := [0x65#8, 0x2D#8] ++ es) hd hds (by decide)
      simpa using this
  have h2 : spanDigits (ds ++ ([0x65#8, 0x2D#8] ++ es)) = (ds, [0x65#8, 0x2D#8] ++ es) :=
    spanDigits_append hds (by simp; decide)
  have h3 : spanDigits es = (es, []) := by simpa using spanDigits_append (rest := []) hes (by simp)
  simp only [parseDecimal, h1, h2]
  simp [dropChar, h3, hd, he]

/-! ### R263's properties of one text -/

/-- The check of R263 (2) says what R263 (2) says. -/
theorem textOk_iff (str : List Byte) : textOk str = true ↔ str ≠ [] ∧ (∀ c ∈ str, Printable c) ∧ str.length < 2 ^ 64 := by
  simp [textOk, Printable, and_assoc]

/-- A text begins with a character when dropping that character succeeds. -/
theorem dropChar_iff (x : Byte) (str : List Byte) : (dropChar x str).1 = true ↔ str.head? = some x := by
  cases str with
  | nil => simp [dropChar]
  | cons c cs =>
    simp only [dropChar]
    split <;> simp_all

/-! ### The exact text of a finite pattern -/

/-- The exact text reads back as the pattern's sign, its units times `5^k`, and the exponent `-k`. -/
theorem parseDecimal_exactText (f : Fmt) (a : Pat16) :
    parseDecimal (exactText f a) =
      some ⟨(fields f.tag a).s, magUnits f.tag a * 5 ^ unitScale f.tag, 0, -(unitScale f.tag : Int)⟩ := by
  obtain ⟨h1, h2, h3, -⟩ := natDigits_spec (magUnits f.tag a * 5 ^ unitScale f.tag)
  obtain ⟨g1, g2, g3, -⟩ := natDigits_spec (unitScale f.tag)
  have := parseDecimal_scientific (fields f.tag a).s h1 h2 g1 g2
  rwa [h3, g3] at this

/-- The number the exact text denotes rounds to the pattern itself. -/
theorem rne_exactText (f : Fmt) (a : Pat16) (h : IsFinite f.tag a) :
    let d : Decimal := ⟨(fields f.tag a).s, magUnits f.tag a * 5 ^ unitScale f.tag, 0, -(unitScale f.tag : Int)⟩
    (rne f.tag d.neg d.num d.den : Pat16) = a := by
  have hn : (-(unitScale f.tag : Int) - ((0 : Nat) : Int)).toNat = 0 := by omega
  have hdn : (((0 : Nat) : Int) - -(unitScale f.tag : Int)).toNat = unitScale f.tag := by omega
  simp only [Decimal.num, Decimal.den, hn, hdn]
  apply rne_exact (by simp) h (by positivity)
  have : (10 : Nat) ^ unitScale f.tag = 5 ^ unitScale f.tag * 2 ^ unitScale f.tag := by
    rw [← mul_pow]
    rfl
  rw [this]
  ring

/-- The exact text has the properties R263 asks of a finite pattern's text. -/
theorem finiteTextOk_exactText (f : Fmt) (a : Pat16) (h : IsFinite f.tag a) : finiteTextOk f a (exactText f a) = true := by
  obtain ⟨h1, h2, h3, h4⟩ := natDigits_spec (magUnits f.tag a * 5 ^ unitScale f.tag)
  obtain ⟨g1, g2, g3, g4⟩ := natDigits_spec (unitScale f.tag)
  have hdig : ∀ c : Byte, isDigit c = true → 0x20 ≤ c.toNat ∧ c.toNat ≤ 0x7E := by
    intro c hc
    have := isDigit_iff.1 hc
    omega
  obtain ⟨L, hL⟩ : ∃ L, L = 1000 := ⟨_, rfl⟩
  have hlen : magUnits f.tag a * 5 ^ unitScale f.tag < 2 ^ L := by
    have hu := magUnits_lt_overflow h
    calc magUnits f.tag a * 5 ^ unitScale f.tag ≤ overflowUnits f.tag * 5 ^ unitScale f.tag := Nat.mul_le_mul_right _ hu.le
      _ ≤ 2 ^ (prec f.tag + 1 + (emaxField f.tag - 3)) * 2 ^ (3 * unitScale f.tag) := by
        rw [pow_add, pow_mul]
        exact Nat.mul_le_mul (Nat.mul_le_mul_right _ (Nat.sub_le _ _)) (Nat.pow_le_pow_left (by norm_num) _)
      _ = 2 ^ (prec f.tag + 1 + (emaxField f.tag - 3) + 3 * unitScale f.tag) := by rw [← pow_add]
      _ < 2 ^ L := Nat.pow_lt_pow_right (by norm_num) (by subst hL; cases f <;> decide)
  have hl1 : Nat.log2 (magUnits f.tag a * 5 ^ unitScale f.tag) < L := by
    by_cases h0 : magUnits f.tag a * 5 ^ unitScale f.tag = 0
    · rw [h0, hL]
      decide
    · exact (Nat.log2_lt h0).2 hlen
  have hl2 : Nat.log2 (unitScale f.tag) < 1000 := by cases f <;> decide
  have htext : textOk (exactText f a) = true := by
    simp only [textOk, Bool.and_eq_true, List.all_eq_true, decide_eq_true_eq, exactText]
    refine ⟨⟨by simp, ?_⟩, ?_⟩
    · intro c hc
      simp only [List.mem_append] at hc
      rcases hc with ((hc | hc) | hc) | hc
      · split at hc
        · rw [List.mem_singleton.1 hc]; decide
        · simp at hc
      · exact hdig c (h2 c hc)
      · rcases List.mem_cons.1 hc with rfl | hc
        · decide
        · rw [List.mem_singleton.1 hc]; decide
      · exact hdig c (g2 c hc)
    · simp only [List.length_append]
      have : (if (fields f.tag a).s then [0x2D#8] else ([] : List Byte)).length ≤ 1 := by split <;> simp
      simp only [List.length_cons, List.length_nil]
      apply decide_eq_true
      omega
  have hread : readsBack f a (exactText f a) = true := by
    have := rne_exactText f a h
    simp only at this
    simp [readsBack, parseDecimal_exactText, this]
  rw [finiteTextOk, htext, hread]
  by_cases h0 : a = 0x8000#16
  · subst h0
    cases f <;> rfl
  · simp [h0]

end Sys2Proof.Machine
end

