-- ==== Sys2Proof/Laws/Widen.lean ====
section
/-! SUPPORT. The widenings (R140 to R144) by class: an infinity or a NaN keeps its sign and its mantissa left-aligned; a finite pattern
keeps its sign and its magnitude, counted in the wide format's units. -/

namespace Sys2Proof.Machine

/-! ### Any widening with R141's algorithm -/

/-- Widening an infinity or a NaN. -/
theorem widenRebias_special {n : Nat} {T W : Tag} {rebias sub : Nat} {x : Pat16} (h : (fields T x).e = emaxField T) :
    (widenRebias T W rebias sub x : BitVec n) =
      pack W (fields T x).s (emaxField W) ((fields T x).m * 2 ^ (mw W - mw T)) := by
  have := emaxField_pos T
  simp only [widenRebias, h, if_true, Nat.shiftLeft_eq]
  rw [if_neg (by omega)]

/-- Widening a finite pattern, when the re-bias constants are the two formats' own. -/
theorem widenRebias_finite {n : Nat} {T W : Tag} {rebias sub : Nat} (hn : n = patWidth W) {x : Pat16} (h : IsFinite T x)
    (hm : mw T ≤ mw W) (hD : unitScale W = unitScale T + (mw W - mw T + rebias)) (hsub : sub + mw W = mw W - mw T + rebias + 1)
    (hs0 : 0 < sub) (hE : emaxField T + rebias ≤ emaxField W) (hS : mw T + sub ≤ emaxField W) :
    IsFinite W (widenRebias T W rebias sub x : BitVec n) ∧ (fields W (widenRebias T W rebias sub x : BitVec n)).s = (fields T x).s ∧
      magUnits W (widenRebias T W rebias sub x : BitVec n) = magUnits T x * 2 ^ (unitScale W - unitScale T) := by
  have hWE := emaxField_pos W
  have hw0 : ∀ e, e ≤ emaxField W → e < 2 ^ ew W := by
    intro e he
    have : 0 < 2 ^ ew W := by positivity
    unfold emaxField at he
    omega
  have hDD : unitScale W - unitScale T = mw W - mw T + rebias := by omega
  have hfe := isFinite_iff.1 h
  have hel := fields_e_le T x
  have hml := fields_m_lt T x
  have hmag : magUnits T x = if (fields T x).e = 0 then (fields T x).m else (2 ^ mw T + (fields T x).m) * 2 ^ ((fields T x).e - 1) := rfl
  rw [hDD, hmag]
  unfold widenRebias
  simp only
  generalize (fields T x).e = e at *
  generalize (fields T x).m = m at *
  generalize (fields T x).s = s at *
  have key : ∀ (y : BitVec n) e' m', e' < emaxField W → m' < 2 ^ mw W → y = pack W s e' m' →
      IsFinite W y ∧ (fields W y).s = s ∧ magUnits W y = if e' = 0 then m' else (2 ^ mw W + m') * 2 ^ (e' - 1) := by
    rintro y e' m' h1 h2 rfl
    have hf := fields_pack hn (s := s) (hw0 e' h1.le) h2
    refine ⟨isFinite_iff.2 (by rw [hf]; exact h1.ne), by rw [hf], ?_⟩
    simp only [magUnits, hf]
  have hd : 2 ^ mw W = 2 ^ mw T * 2 ^ (mw W - mw T) := by
    rw [← pow_add]
    congr 1
    omega
  by_cases he : e = 0
  · simp only [he, if_true]
    by_cases hm0 : m = 0
    · simp only [hm0, if_true]
      obtain ⟨k1, k2, k3⟩ := key _ 0 0 (by omega) (by positivity) rfl
      exact ⟨k1, k2, by rw [k3]; simp⟩
    · simp only [hm0, if_false]
      have hlog : Nat.log2 m < mw T := (Nat.log2_lt hm0).2 hml
      have h1 : 2 ^ Nat.log2 m ≤ m := Nat.log2_self_le hm0
      have h2 : m < 2 ^ (Nat.log2 m + 1) := Nat.lt_log2_self
      generalize Nat.log2 m = hi at *
      have hp : 0 < 2 ^ (mw W - hi) := by positivity
      have g1 : 2 ^ mw W ≤ m * 2 ^ (mw W - hi) := by
        calc 2 ^ mw W = 2 ^ hi * 2 ^ (mw W - hi) := by rw [← pow_add]; congr 1; omega
          _ ≤ _ := Nat.mul_le_mul_right _ h1
      have g2 : m * 2 ^ (mw W - hi) < 2 ^ mw W + 2 ^ mw W := by
        calc m * 2 ^ (mw W - hi) < 2 ^ (hi + 1) * 2 ^ (mw W - hi) := Nat.mul_lt_mul_of_pos_right h2 hp
          _ = 2 ^ (mw W + 1) := by rw [← pow_add]; congr 1; omega
          _ = _ := by rw [pow_succ]; omega
      have g3 : m <<< (mw W - hi) % 2 ^ mw W = m * 2 ^ (mw W - hi) - 2 ^ mw W := by
        rw [Nat.shiftLeft_eq, Nat.mod_eq_sub_mod g1, Nat.mod_eq_of_lt (by omega)]
      obtain ⟨k1, k2, k3⟩ := key (pack W s (hi + sub) (m <<< (mw W - hi) % 2 ^ mw W)) (hi + sub) _ (by omega)
        (Nat.mod_lt _ (by positivity)) rfl
      refine ⟨k1, k2, ?_⟩
      rw [k3, if_neg (by omega), g3, Nat.add_sub_cancel' g1, mul_assoc, ← pow_add]
      congr 2
      omega
  · simp only [he, if_false, hfe]
    have g2 : m * 2 ^ (mw W - mw T) < 2 ^ mw W := by
      rw [hd]
      exact Nat.mul_lt_mul_of_pos_right hml (by positivity)
    obtain ⟨k1, k2, k3⟩ := key (pack W s (e + rebias) (m <<< (mw W - mw T))) (e + rebias) _ (by omega)
      (by rw [Nat.shiftLeft_eq]; exact g2) rfl
    refine ⟨k1, k2, ?_⟩
    rw [k3, if_neg (by omega), Nat.shiftLeft_eq, hd, ← Nat.add_mul, mul_assoc, mul_assoc, ← pow_add, ← pow_add]
    congr 2
    omega

/-- Zero extension on the right (R143) keeps the sign and the exponent and left-aligns the mantissa. -/
theorem widenBFS_eq (x : Pat16) : widenBFS x = pack .s (fields .bf x).s (fields .bf x).e ((fields .bf x).m * 2 ^ 16) := by
  apply BitVec.eq_of_toNat_eq
  have hm := fields_m_lt .bf x
  rw [toNat_pack (n := 32) (T := .s) rfl (fields_e_lt .bf x) (by simp only [mw] at *; omega)]
  have h := toNat_eq_fields (T := .bf) (n := 16) rfl x
  have : (widenBFS x).toNat = x.toNat * 2 ^ 16 := by
    rw [widenBFS, BitVec.toNat_append, Nat.shiftLeft_eq]
    simp
  rw [this, h]
  simp only [ew, mw]
  ring

/-! ### The four widenings -/

/-- Widening an infinity or a NaN to binary32. -/
theorem widenToS_special {f : Fmt} {x : Pat16} (h : (fields f.tag x).e = emaxField f.tag) :
    widenToS f x = pack .s (fields f.tag x).s (emaxField .s) ((fields f.tag x).m * 2 ^ (mw .s - mw f.tag)) := by
  cases f with
  | h => exact widenRebias_special h
  | bf =>
    have h' : (fields .bf x).e = emaxField .s := h
    have := widenBFS_eq x
    rw [h'] at this
    exact this

/-- Widening an infinity or a NaN to binary64. -/
theorem widenToD_special {f : Fmt} {x : Pat16} (h : (fields f.tag x).e = emaxField f.tag) :
    widenToD f x = pack .d (fields f.tag x).s (emaxField .d) ((fields f.tag x).m * 2 ^ (mw .d - mw f.tag)) := by
  cases f <;> exact widenRebias_special h

/-- Widening a finite pattern to binary32. -/
theorem widenToS_finite {f : Fmt} {x : Pat16} (h : IsFinite f.tag x) :
    IsFinite .s (widenToS f x) ∧ (fields .s (widenToS f x)).s = (fields f.tag x).s ∧
      magUnits .s (widenToS f x) = magUnits f.tag x * 2 ^ (unitScale .s - unitScale f.tag) := by
  cases f with
  | h => exact widenRebias_finite rfl h (by decide) (by decide) (by decide) (by decide) (by decide) (by decide)
  | bf =>
    have hm := fields_m_lt .bf x
    have hf : fields .s (widenBFS x) = ⟨(fields .bf x).s, (fields .bf x).e, (fields .bf x).m * 2 ^ 16⟩ := by
      rw [widenBFS_eq]
      exact fields_pack rfl (fields_e_lt .bf x) (by simp only [mw] at *; omega)
    have he := isFinite_iff.1 h
    refine ⟨isFinite_iff.2 ?_, ?_, ?_⟩
    · show (fields .s (widenBFS x)).e ≠ _
      rw [hf]
      exact he
    · show (fields .s (widenBFS x)).s = _
      rw [hf]
      rfl
    · show magUnits .s (widenBFS x) = magUnits .bf x * 2 ^ 16
      simp only [magUnits, hf, mw]
      split
      · rfl
      · ring

/-- Widening a finite pattern to binary64. -/
theorem widenToD_finite {f : Fmt} {x : Pat16} (h : IsFinite f.tag x) :
    IsFinite .d (widenToD f x) ∧ (fields .d (widenToD f x)).s = (fields f.tag x).s ∧
      magUnits .d (widenToD f x) = magUnits f.tag x * 2 ^ (unitScale .d - unitScale f.tag) := by
  cases f with
  | h =>
    simp only [Fmt.tag] at h ⊢
    exact widenRebias_finite (T := .h) (W := .d) (rebias := 1008) (sub := 999) rfl h (by decide) (by decide) (by decide) (by decide)
      (by decide) (by decide)
  | bf =>
    simp only [Fmt.tag] at h ⊢
    exact widenRebias_finite (T := .bf) (W := .d) (rebias := 896) (sub := 890) rfl h (by decide) (by decide) (by decide) (by decide)
      (by decide) (by decide)

/-! ### Class, sign and value of a widened pattern -/

/-- A left-aligned mantissa fits the wide format's field, and is 0 only when the mantissa is. -/
theorem aligned_mantissa {n : Nat} {T W : Tag} (hm : mw T ≤ mw W) (x : BitVec n) :
    (fields T x).m * 2 ^ (mw W - mw T) < 2 ^ mw W ∧ ((fields T x).m * 2 ^ (mw W - mw T) = 0 ↔ (fields T x).m = 0) := by
  have hp : 0 < 2 ^ (mw W - mw T) := by positivity
  refine ⟨?_, by simp⟩
  calc (fields T x).m * 2 ^ (mw W - mw T) < 2 ^ mw T * 2 ^ (mw W - mw T) := Nat.mul_lt_mul_of_pos_right (fields_m_lt T x) hp
    _ = 2 ^ mw W := by rw [← pow_add]; congr 1; omega

/-- The fields of a widened infinity or NaN. -/
theorem fields_widenToS_special {f : Fmt} {x : Pat16} (h : (fields f.tag x).e = emaxField f.tag) :
    fields .s (widenToS f x) = ⟨(fields f.tag x).s, emaxField .s, (fields f.tag x).m * 2 ^ (mw .s - mw f.tag)⟩ := by
  rw [widenToS_special h]
  exact fields_pack rfl (emaxField_lt _) (aligned_mantissa (by cases f <;> decide) x).1

/-- Widening keeps the sign. -/
theorem sign_widenToS (f : Fmt) (x : Pat16) : (fields .s (widenToS f x)).s = (fields f.tag x).s := by
  by_cases h : IsFinite f.tag x
  · exact (widenToS_finite h).2.1
  · rw [fields_widenToS_special (by by_contra h'; exact h (isFinite_iff.2 h'))]

/-- Widening keeps a pattern finite or not. -/
theorem isFinite_widenToS (f : Fmt) (x : Pat16) : IsFinite .s (widenToS f x) ↔ IsFinite f.tag x := by
  refine ⟨fun h => ?_, fun h => (widenToS_finite h).1⟩
  by_contra h'
  rw [isFinite_iff, fields_widenToS_special (by by_contra h''; exact h' (isFinite_iff.2 h''))] at h
  exact h rfl

/-- Widening keeps a NaN a NaN, and makes no other. -/
theorem classOf_widenToS_nan (f : Fmt) (x : Pat16) : classOf .s (widenToS f x) = .nan ↔ classOf f.tag x = .nan := by
  by_cases h : IsFinite f.tag x
  · have h1 := (widenToS_finite h).1
    rw [isFinite_iff] at h h1
    rw [classOf_nan, classOf_nan]
    exact ⟨fun g => absurd g.1 h1, fun g => absurd g.1 h⟩
  · have he : (fields f.tag x).e = emaxField f.tag := by by_contra h'; exact h (isFinite_iff.2 h')
    rw [classOf_nan, classOf_nan, fields_widenToS_special he, he]
    simp

/-- Widening keeps an infinity an infinity, and makes no other. -/
theorem classOf_widenToS_infinite (f : Fmt) (x : Pat16) : classOf .s (widenToS f x) = .infinite ↔ classOf f.tag x = .infinite := by
  by_cases h : IsFinite f.tag x
  · have h1 := (widenToS_finite h).1
    rw [isFinite_iff] at h h1
    rw [classOf_infinite, classOf_infinite]
    exact ⟨fun g => absurd g.1 h1, fun g => absurd g.1 h⟩
  · have he : (fields f.tag x).e = emaxField f.tag := by by_contra h'; exact h (isFinite_iff.2 h')
    rw [classOf_infinite, classOf_infinite, fields_widenToS_special he, he]
    simp

/-- A pattern is a zero when its magnitude is 0. -/
theorem classOf_zero_iff_units {n : Nat} {T : Tag} {x : BitVec n} : classOf T x = .zero ↔ magUnits T x = 0 := by
  rw [classOf_zero]
  unfold magUnits
  simp only
  split
  · simp_all
  · have : 0 < 2 ^ mw T := by positivity
    have : 0 < (2 ^ mw T + (fields T x).m) * 2 ^ ((fields T x).e - 1) := by positivity
    omega

/-- Widening keeps a zero a zero, and makes no other. -/
theorem classOf_widenToS_zero (f : Fmt) (x : Pat16) : classOf .s (widenToS f x) = .zero ↔ classOf f.tag x = .zero := by
  by_cases h : IsFinite f.tag x
  · rw [classOf_zero_iff_units, classOf_zero_iff_units, (widenToS_finite h).2.2]
    simp
  · have h1 : ¬ IsFinite .s (widenToS f x) := fun g => h ((isFinite_widenToS f x).1 g)
    exact ⟨fun g => absurd (.inl g) h1, fun g => absurd (.inl g) h⟩

theorem unitScale_le (f : Fmt) : unitScale f.tag ≤ unitScale .s ∧ unitScale f.tag ≤ unitScale .d := by cases f <;> decide

/-- Units of a coarse format in units of a finer one. -/
theorem unitValue_scaled {T W : Tag} (h : unitScale T ≤ unitScale W) :
    (2 : ℚ) ^ (unitScale W - unitScale T) * unitValue W = unitValue T := by
  unfold unitValue
  rw [← zpow_natCast, ← zpow_add₀ (by norm_num)]
  congr 1
  rw [Nat.cast_sub h]
  ring

/-- Widening to binary32 keeps the value of a finite pattern. -/
theorem value_widenToS {f : Fmt} {x : Pat16} (h : IsFinite f.tag x) : value .s (widenToS f x) = value f.tag x := by
  obtain ⟨h1, h2, h3⟩ := widenToS_finite h
  rw [value_eq_units h1, value_eq_units h, h2, h3]
  push_cast
  rw [mul_assoc, mul_assoc, unitValue_scaled (unitScale_le f).1, mul_assoc]

/-- Inverting a 16-bit pattern's sign, by its fields. -/
theorem fields_flipSign16 (f : Fmt) (x : Pat16) :
    fields f.tag (x ^^^ 0x8000#16) = ⟨!(fields f.tag x).s, (fields f.tag x).e, (fields f.tag x).m⟩ := by
  cases f with
  | h => exact fields_flipSign (n := 16) (T := .h) rfl x
  | bf => exact fields_flipSign (n := 16) (T := .bf) rfl x

/-- Inverting the sign before or after widening is the same (R183). -/
theorem widenToS_flipSign (f : Fmt) (x : Pat16) : widenToS f x ^^^ 0x80000000#32 = widenToS f (x ^^^ 0x8000#16) := by
  have hS : fields .s (widenToS f x ^^^ 0x80000000#32) =
      ⟨!(fields .s (widenToS f x)).s, (fields .s (widenToS f x)).e, (fields .s (widenToS f x)).m⟩ :=
    fields_flipSign (n := 32) (T := .s) rfl _
  have hx := fields_flipSign16 f x
  refine eq_of_fields (n := 32) (T := .s) rfl ?_
  show fields .s (widenToS f x ^^^ 0x80000000#32) = _
  rw [hS]
  by_cases hf : (fields f.tag x).e = emaxField f.tag
  · rw [fields_widenToS_special hf, fields_widenToS_special (by rw [hx]; exact hf), hx]
  · have g := widenToS_finite (f := f) (isFinite_iff.2 hf)
    have g' := widenToS_finite (f := f) (x := x ^^^ 0x8000#16) (isFinite_iff.2 (by rw [hx]; exact hf))
    have hu : magUnits f.tag (x ^^^ 0x8000#16) = magUnits f.tag x := by simp only [magUnits, hx]
    have hbits : bitsOf .s (widenToS f (x ^^^ 0x8000#16)) = bitsOf .s (widenToS f x) := by
      apply (unitsOf_strictMono .s).injective
      rw [← magUnits_eq_unitsOf, ← magUnits_eq_unitsOf, g'.2.2, g.2.2, hu]
    have he : (fields .s (widenToS f (x ^^^ 0x8000#16))).e = (fields .s (widenToS f x)).e := by
      rw [← bitsOf_div, ← bitsOf_div, hbits]
    have hm : (fields .s (widenToS f (x ^^^ 0x8000#16))).m = (fields .s (widenToS f x)).m := by
      rw [← bitsOf_mod, ← bitsOf_mod, hbits]
    have hs : (fields .s (widenToS f (x ^^^ 0x8000#16))).s = !(fields .s (widenToS f x)).s := by
      rw [sign_widenToS, sign_widenToS, hx]
    rw [← he, ← hm, ← hs]

end Sys2Proof.Machine
end

