-- ==== Sys2Proof/Tests/Slice0.lean ====
section
/-! SUPPORT. Tests of one step each. Expected values are the spec's: the command words of R64 written out, and vectors of
95_test_vectors.md, named in each comment. At the end, for every statement with hypotheses, a state and operands that meet them. -/

namespace Sys2Proof.Tests

open Sys2Proof.Machine

/-! ### Helpers -/

/-- A unit right after reset with the given CAP and FEAT_STD and one waiting request. -/
def unit (cap : BitVec 1) (featStd : Bool) (cmd : Cmd) (a b : Word64) : State :=
  { State.reset with cap := cap, featStd := featStd, requests := [⟨0, cmd, a, b⟩] }

/-- The response a step leaves. -/
def responseOf : Host.Outcome State Fault Refusal → Option Response
  | .next t => t.out
  | .fault _ => none
  | .refused _ => none

/-- The fault a step leaves recorded. -/
def recordedBy : Host.Outcome State Fault Refusal → Option Fault
  | .next t => t.fault
  | .fault _ => none
  | .refused _ => none

/-- The response to one request on the portable path with FEAT_STD = 1, the setting of the vectors. -/
def serve (cmd : Cmd) (a b : Word64) : Option Response := responseOf (step (unit 0 true cmd a b))

/-! ### Well-formed instructions (R7, R262) -/

theorem test_wellFormed_refuses_fmtdec_without_featStd :
    Instr.wellFormed false (.fmtdec .h) = false ∧ Instr.wellFormed false (.fmtdec .bf) = false := by decide

theorem test_wellFormed_accepts :
    Instr.wellFormed true (.fmtdec .h) = true ∧ Instr.wellFormed false (.fmtbits .bf) = true := by decide

/-! ### Decoding: CMD[7] is F and CMD[6:0] is OP, written out in binary (R60, R64) -/

theorem test_decode_conversions :
    decode 0b0_000_0000#8 = .ok (.frombits .h) ∧
    decode 0b1_000_0000#8 = .ok (.frombits .bf) ∧
    decode 0b1_000_0001#8 = .ok (.tobits .bf) ∧
    decode 0b0_000_0010#8 = .ok (.fromf32 .h) ∧
    decode 0b1_000_0011#8 = .ok (.fromf64 .bf) ∧
    decode 0b0_000_0100#8 = .ok (.tof32 .h) ∧
    decode 0b1_000_0101#8 = .ok (.tof64 .bf) ∧
    decode 0b0_000_0110#8 = .ok (.fromi64 .h) ∧
    decode 0b1_000_0111#8 = .ok (.fromu64 .bf) := by decide

theorem test_decode_predicates :
    decode 0b0_000_1000#8 = .ok (.isnan .h) ∧
    decode 0b1_000_1000#8 = .ok (.isnan .bf) ∧
    decode 0b1_000_1001#8 = .ok (.isinf .bf) ∧
    decode 0b0_000_1010#8 = .ok (.isfinite .h) ∧
    decode 0b1_000_1011#8 = .ok (.issignneg .bf) ∧
    decode 0b0_000_1100#8 = .ok (.classify .h) := by decide

theorem test_decode_arithmetic :
    decode 0b0_001_0000#8 = .ok (.add .h) ∧
    decode 0b1_001_0000#8 = .ok (.add .bf) ∧
    decode 0b1_001_0001#8 = .ok (.sub .bf) ∧
    decode 0b0_001_0010#8 = .ok (.mul .h) ∧
    decode 0b1_001_0011#8 = .ok (.div .bf) ∧
    decode 0b0_001_0100#8 = .ok (.rem .h) ∧
    decode 0b1_001_0101#8 = .ok (.neg .bf) := by decide

theorem test_decode_comparisons :
    decode 0b0_001_1000#8 = .ok (.eq .h) ∧
    decode 0b1_001_1000#8 = .ok (.eq .bf) ∧
    decode 0b1_001_1001#8 = .ok (.ne .bf) ∧
    decode 0b0_001_1010#8 = .ok (.lt .h) ∧
    decode 0b1_001_1011#8 = .ok (.le .bf) ∧
    decode 0b0_001_1100#8 = .ok (.gt .h) ∧
    decode 0b1_001_1101#8 = .ok (.ge .bf) ∧
    decode 0b0_001_1110#8 = .ok (.totalcmp .h) := by decide

theorem test_decode_minimum_maximum :
    decode 0b0_010_0000#8 = .ok (.min .h) ∧
    decode 0b1_010_0000#8 = .ok (.min .bf) ∧
    decode 0b1_010_0001#8 = .ok (.max .bf) ∧
    decode 0b0_010_0010#8 = .ok (.minimum .h) ∧
    decode 0b1_010_0011#8 = .ok (.maximum .bf) := by decide

theorem test_decode_formatting :
    decode 0b0_010_1000#8 = .ok (.fmtbits .h) ∧
    decode 0b1_010_1000#8 = .ok (.fmtbits .bf) ∧
    decode 0b1_010_1001#8 = .ok (.fmtdec .bf) := by decide

/-- The first and last word of each reserved range (R66). -/
theorem test_decode_reserved :
    decode 0x0D#8 = .error (.reservedOp 0x0D#7) ∧ decode 0x0F#8 = .error (.reservedOp 0x0F#7) ∧
    decode 0x16#8 = .error (.reservedOp 0x16#7) ∧ decode 0x97#8 = .error (.reservedOp 0x17#7) ∧
    decode 0x1F#8 = .error (.reservedOp 0x1F#7) ∧ decode 0x24#8 = .error (.reservedOp 0x24#7) ∧
    decode 0xA7#8 = .error (.reservedOp 0x27#7) ∧ decode 0x2A#8 = .error (.reservedOp 0x2A#7) ∧
    decode 0xFF#8 = .error (.reservedOp 0x7F#7) := by decide

/-! ### One request, one response (95_test_vectors.md) -/

/-- CB-1, CB-3. -/
theorem test_frombits_keeps_bits :
    serve 0x00 0x7C01 0 = some ⟨0x7C01, 0, []⟩ ∧
    serve 0x00 0xFFFF3C00 0 = some ⟨0x3C00, 0, []⟩ := by decide

/-- CB-4, CB-5. -/
theorem test_tobits_keeps_bits :
    serve 0x81 0xFFC1 0 = some ⟨0xFFC1, 0, []⟩ ∧
    serve 0x01 0x8000 0 = some ⟨0x8000, 0, []⟩ := by decide

/-- S8-18, S8-19, S8-20, S8-21, F32BF-1, F32BF-6. -/
theorem test_fromf32_ties :
    serve 0x02 0x3F801000 0 = some ⟨0x3C00, 0, []⟩ ∧
    serve 0x02 0x3F803000 0 = some ⟨0x3C02, 0, []⟩ ∧
    serve 0x02 0x3FFFF000 0 = some ⟨0x4000, 0, []⟩ ∧
    serve 0x02 0x477FF000 0 = some ⟨0x7C00, 0, []⟩ ∧
    serve 0x82 0x3F818000 0 = some ⟨0x3F82, 0, []⟩ ∧
    serve 0x82 0x00018000 0 = some ⟨0x0002, 0, []⟩ := by decide

/-- F32H-2, F32H-8, F32H-9, F32H-10, F32H-15, F32H-19, F32H-20, F32BF-4, F32BF-9. -/
theorem test_fromf32_edges :
    serve 0x02 0x477FEFFF 0 = some ⟨0x7BFF, 0, []⟩ ∧
    serve 0x02 0x33000000 0 = some ⟨0x0000, 0, []⟩ ∧
    serve 0x02 0x33000001 0 = some ⟨0x0001, 0, []⟩ ∧
    serve 0x02 0xB3000001 0 = some ⟨0x8001, 0, []⟩ ∧
    serve 0x02 0x387FF000 0 = some ⟨0x0400, 0, []⟩ ∧
    serve 0x02 0x7F800001 0 = some ⟨0x7E00, 0, []⟩ ∧
    serve 0x02 0x7F802000 0 = some ⟨0x7C01, 0, []⟩ ∧
    serve 0x82 0x7F7F7FFF 0 = some ⟨0x7F7F, 0, []⟩ ∧
    serve 0x82 0x7F800001 0 = some ⟨0x7FC0, 0, []⟩ := by decide

/-- F64H-1, F64BF-1. -/
theorem test_fromf64_one_rounding :
    serve 0x03 0x3FF0020000000001 0 = some ⟨0x3C01, 0, []⟩ ∧
    serve 0x83 0x3FF0100000000001 0 = some ⟨0x3F81, 0, []⟩ := by decide

/-- F64H-3, F64H-5, F64H-6, F64BF-2, F64BF-3, F64BF-4. -/
theorem test_fromf64_edges :
    serve 0x03 0x40EFFDFFFFFFFFFF 0 = some ⟨0x7BFF, 0, []⟩ ∧
    serve 0x03 0x3E60000000000001 0 = some ⟨0x0001, 0, []⟩ ∧
    serve 0x03 0x7FF0000000000001 0 = some ⟨0x7E00, 0, []⟩ ∧
    serve 0x83 0x47EFF00000000000 0 = some ⟨0x7F80, 0, []⟩ ∧
    serve 0x83 0x3790000000000001 0 = some ⟨0x0001, 0, []⟩ ∧
    serve 0x83 0x3790000000000000 0 = some ⟨0x0000, 0, []⟩ := by decide

/-- TOF32-1, TOF32-2, TOF32-6. -/
theorem test_tof32_normalises :
    serve 0x04 0x0001 0 = some ⟨0x33800000, 0, []⟩ ∧
    serve 0x04 0x03FF 0 = some ⟨0x387FC000, 0, []⟩ ∧
    serve 0x04 0x8000 0 = some ⟨0x80000000, 0, []⟩ := by decide

/-- TOF32-4, TOF32-5, TOF32-8, TOF32-9. -/
theorem test_tof32_nan_and_bf :
    serve 0x04 0x7C01 0 = some ⟨0x7F802000, 0, []⟩ ∧
    serve 0x04 0xFE00 0 = some ⟨0xFFC00000, 0, []⟩ ∧
    serve 0x84 0x0001 0 = some ⟨0x00010000, 0, []⟩ ∧
    serve 0x84 0xFF81 0 = some ⟨0xFF810000, 0, []⟩ := by decide

/-- TOF64-1, TOF64-2, TOF64-4. -/
theorem test_tof64_normalises :
    serve 0x05 0x7BFF 0 = some ⟨0x40EFFC0000000000, 0, []⟩ ∧
    serve 0x05 0x0001 0 = some ⟨0x3E70000000000000, 0, []⟩ ∧
    serve 0x85 0x0001 0 = some ⟨0x37A0000000000000, 0, []⟩ := by decide

/-- TOF64-3, TOF64-5, TOF64-7. -/
theorem test_tof64_nan_and_infinity :
    serve 0x05 0x7C01 0 = some ⟨0x7FF0040000000000, 0, []⟩ ∧
    serve 0x85 0x7F81 0 = some ⟨0x7FF0200000000000, 0, []⟩ ∧
    serve 0x85 0xFF80 0 = some ⟨0xFFF0000000000000, 0, []⟩ := by decide

/-- I64-2, I64-3, I64-5, I64-9. -/
theorem test_fromi64_ties :
    serve 0x06 0x0000000000000801 0 = some ⟨0x6800, 0, []⟩ ∧
    serve 0x06 0x0000000000000803 0 = some ⟨0x6802, 0, []⟩ ∧
    serve 0x06 0x000000000000FFF0 0 = some ⟨0x7C00, 0, []⟩ ∧
    serve 0x86 0x0000000000000101 0 = some ⟨0x4380, 0, []⟩ := by decide

/-- I64-1, I64-6, I64-7, I64-8. -/
theorem test_fromi64_signs :
    serve 0x06 0x0000000000000000 0 = some ⟨0x0000, 0, []⟩ ∧
    serve 0x06 0xFFFFFFFFFFFFFFFF 0 = some ⟨0xBC00, 0, []⟩ ∧
    serve 0x06 0x8000000000000000 0 = some ⟨0xFC00, 0, []⟩ ∧
    serve 0x86 0x8000000000000000 0 = some ⟨0xDF00, 0, []⟩ := by decide

/-- U64-1, U64-2, U64-3, U64-5. -/
theorem test_fromu64_rounds :
    serve 0x87 0x0000000000000103 0 = some ⟨0x4382, 0, []⟩ ∧
    serve 0x87 0x0000000001010001 0 = some ⟨0x4B81, 0, []⟩ ∧
    serve 0x87 0xFFFFFFFFFFFFFFFF 0 = some ⟨0x5F80, 0, []⟩ ∧
    serve 0x07 0x8000000000000000 0 = some ⟨0x7C00, 0, []⟩ := by decide

/-- ISNAN-1, ISNAN-3, ISNAN-5. -/
theorem test_isnan :
    serve 0x08 0x7C01 0 = some ⟨0x1, 0, []⟩ ∧
    serve 0x08 0x7C00 0 = some ⟨0x0, 0, []⟩ ∧
    serve 0x88 0x7F80 0 = some ⟨0x0, 0, []⟩ := by decide

/-- ISINF-1, ISINF-2, ISINF-3, ISINF-4. -/
theorem test_isinf :
    serve 0x09 0xFC00 0 = some ⟨0x1, 0, []⟩ ∧
    serve 0x09 0x7E00 0 = some ⟨0x0, 0, []⟩ ∧
    serve 0x09 0x7BFF 0 = some ⟨0x0, 0, []⟩ ∧
    serve 0x89 0xFF80 0 = some ⟨0x1, 0, []⟩ := by decide

/-- ISFINITE-1, ISFINITE-2, ISFINITE-3, ISFINITE-4. -/
theorem test_isfinite :
    serve 0x0A 0x7BFF 0 = some ⟨0x1, 0, []⟩ ∧
    serve 0x0A 0x7C00 0 = some ⟨0x0, 0, []⟩ ∧
    serve 0x0A 0x7E00 0 = some ⟨0x0, 0, []⟩ ∧
    serve 0x0A 0x8000 0 = some ⟨0x1, 0, []⟩ := by decide

/-- ISSIGNNEG-1, ISSIGNNEG-3, ISSIGNNEG-4, ISSIGNNEG-5. -/
theorem test_issignneg :
    serve 0x0B 0x8000 0 = some ⟨0x1, 0, []⟩ ∧
    serve 0x0B 0xFE00 0 = some ⟨0x1, 0, []⟩ ∧
    serve 0x0B 0x7E00 0 = some ⟨0x0, 0, []⟩ ∧
    serve 0x8B 0xBF80 0 = some ⟨0x1, 0, []⟩ := by decide

/-- CLASSIFY-1, CLASSIFY-2, CLASSIFY-3, CLASSIFY-4, CLASSIFY-5. -/
theorem test_classify_h :
    serve 0x0C 0x7E00 0 = some ⟨0x0, 0, []⟩ ∧
    serve 0x0C 0x7C00 0 = some ⟨0x1, 0, []⟩ ∧
    serve 0x0C 0x8000 0 = some ⟨0x2, 0, []⟩ ∧
    serve 0x0C 0x03FF 0 = some ⟨0x3, 0, []⟩ ∧
    serve 0x0C 0x0400 0 = some ⟨0x4, 0, []⟩ := by decide

/-- CLASSIFY-7, CLASSIFY-8, CLASSIFY-9, CLASSIFY-10. -/
theorem test_classify_bf :
    serve 0x8C 0x7F81 0 = some ⟨0x0, 0, []⟩ ∧
    serve 0x8C 0x7F80 0 = some ⟨0x1, 0, []⟩ ∧
    serve 0x8C 0x007F 0 = some ⟨0x3, 0, []⟩ ∧
    serve 0x8C 0x0080 0 = some ⟨0x4, 0, []⟩ := by decide

/-- ADD-2, ADD-3, ADD-4, ADD-11, ADD-12, ADD-14, ADD-21. -/
theorem test_add_rounds :
    serve 0x10 0x3C00 0xBC00 = some ⟨0x0000, 0, []⟩ ∧
    serve 0x10 0x8000 0x8000 = some ⟨0x8000, 0, []⟩ ∧
    serve 0x10 0x8000 0x0000 = some ⟨0x0000, 0, []⟩ ∧
    serve 0x10 0x7BFF 0x4C00 = some ⟨0x7C00, 0, []⟩ ∧
    serve 0x10 0x7BFF 0x4800 = some ⟨0x7BFF, 0, []⟩ ∧
    serve 0x10 0x3C01 0x1000 = some ⟨0x3C02, 0, []⟩ ∧
    serve 0x90 0x3F81 0x3B80 = some ⟨0x3F82, 0, []⟩ := by decide

/-- ADD-5, ADD-7, ADD-8, ADD-9, ADD-22. -/
theorem test_add_special :
    serve 0x10 0x7C00 0xFC00 = some ⟨0x7E00, 0, []⟩ ∧
    serve 0x10 0x7C01 0x3C00 = some ⟨0x7E01, 0, []⟩ ∧
    serve 0x10 0x3C00 0xFC01 = some ⟨0xFE01, 0, []⟩ ∧
    serve 0x10 0xFD00 0x7C01 = some ⟨0xFF00, 0, []⟩ ∧
    serve 0x90 0x7F81 0x3F80 = some ⟨0x7FC1, 0, []⟩ := by decide

/-- SUB-1, SUB-2, SUB-3, SUB-4, SUB-6. -/
theorem test_sub :
    serve 0x11 0x3C00 0x3C00 = some ⟨0x0000, 0, []⟩ ∧
    serve 0x11 0x7C00 0x7C00 = some ⟨0x7E00, 0, []⟩ ∧
    serve 0x11 0x4200 0x3C00 = some ⟨0x4000, 0, []⟩ ∧
    serve 0x11 0x8000 0x0000 = some ⟨0x8000, 0, []⟩ ∧
    serve 0x11 0x7E01 0x7C01 = some ⟨0x7E01, 0, []⟩ := by decide

/-- MUL-1, MUL-2, MUL-4, MUL-9, MUL-12. -/
theorem test_mul_rounds :
    serve 0x12 0x4000 0x4200 = some ⟨0x4600, 0, []⟩ ∧
    serve 0x12 0x7BFF 0x4000 = some ⟨0x7C00, 0, []⟩ ∧
    serve 0x12 0x0003 0x3800 = some ⟨0x0002, 0, []⟩ ∧
    serve 0x12 0x8001 0x0001 = some ⟨0x8000, 0, []⟩ ∧
    serve 0x92 0x4040 0x4040 = some ⟨0x4110, 0, []⟩ := by decide

/-- MUL-5, MUL-8. -/
theorem test_mul_special :
    serve 0x12 0x0000 0x7C00 = some ⟨0x7E00, 0, []⟩ ∧
    serve 0x12 0xBC00 0x7C00 = some ⟨0xFC00, 0, []⟩ := by decide

/-- DIV-5, DIV-8, DIV-9, DIV-12. -/
theorem test_div_rounds :
    serve 0x13 0x3C00 0x4200 = some ⟨0x3555, 0, []⟩ ∧
    serve 0x13 0x7BFF 0x3800 = some ⟨0x7C00, 0, []⟩ ∧
    serve 0x13 0x0001 0x4000 = some ⟨0x0000, 0, []⟩ ∧
    serve 0x93 0x3F80 0x4040 = some ⟨0x3EAB, 0, []⟩ := by decide

/-- DIV-2, DIV-3, DIV-4, DIV-7, DIV-14. -/
theorem test_div_special :
    serve 0x13 0x3C00 0x8000 = some ⟨0xFC00, 0, []⟩ ∧
    serve 0x13 0x0000 0x0000 = some ⟨0x7E00, 0, []⟩ ∧
    serve 0x13 0x7C00 0x7C00 = some ⟨0x7E00, 0, []⟩ ∧
    serve 0x13 0xBC00 0x7C00 = some ⟨0x8000, 0, []⟩ ∧
    serve 0x93 0x0000 0x8000 = some ⟨0x7FC0, 0, []⟩ := by decide

/-- REM-1, REM-2, REM-3, REM-9, REM-10, REM-11. -/
theorem test_rem_signs :
    serve 0x14 0x4500 0x4200 = some ⟨0x4000, 0, []⟩ ∧
    serve 0x14 0xC500 0x4200 = some ⟨0xC000, 0, []⟩ ∧
    serve 0x14 0x4500 0xC200 = some ⟨0x4000, 0, []⟩ ∧
    serve 0x14 0xC400 0x4000 = some ⟨0x8000, 0, []⟩ ∧
    serve 0x14 0x7BFF 0x0001 = some ⟨0x0000, 0, []⟩ ∧
    serve 0x14 0x4248 0x3C00 = some ⟨0x3080, 0, []⟩ := by decide

/-- REM-4, REM-5, REM-6, REM-7, REM-13. -/
theorem test_rem_special :
    serve 0x14 0x3C00 0x0000 = some ⟨0x7E00, 0, []⟩ ∧
    serve 0x14 0x7C00 0x3C00 = some ⟨0x7E00, 0, []⟩ ∧
    serve 0x14 0x3C00 0x7C00 = some ⟨0x3C00, 0, []⟩ ∧
    serve 0x14 0x8000 0x3C00 = some ⟨0x8000, 0, []⟩ ∧
    serve 0x14 0x7C01 0x0000 = some ⟨0x7E01, 0, []⟩ := by decide

/-- NEG-2, NEG-3, NEG-7. -/
theorem test_neg :
    serve 0x15 0x0000 0 = some ⟨0x8000, 0, []⟩ ∧
    serve 0x15 0x7C01 0 = some ⟨0xFC01, 0, []⟩ ∧
    serve 0x95 0xFFC1 0 = some ⟨0x7FC1, 0, []⟩ := by decide

/-- EQ-1, EQ-2, EQ-4. -/
theorem test_eq :
    serve 0x18 0x0000 0x8000 = some ⟨0x1, 0, []⟩ ∧
    serve 0x18 0x7E00 0x7E00 = some ⟨0x0, 0, []⟩ ∧
    serve 0x18 0x3C00 0x3C01 = some ⟨0x0, 0, []⟩ := by decide

/-- NE-1, NE-2. -/
theorem test_ne :
    serve 0x19 0x7E00 0x7E00 = some ⟨0x1, 0, []⟩ ∧
    serve 0x19 0x0000 0x8000 = some ⟨0x0, 0, []⟩ := by decide

/-- LT-1, LT-2, LT-3, LT-6. -/
theorem test_lt :
    serve 0x1A 0x8000 0x0000 = some ⟨0x0, 0, []⟩ ∧
    serve 0x1A 0xFC00 0x7C00 = some ⟨0x1, 0, []⟩ ∧
    serve 0x1A 0x7E00 0x3C00 = some ⟨0x0, 0, []⟩ ∧
    serve 0x1A 0xC000 0xBC00 = some ⟨0x1, 0, []⟩ := by decide

/-- LE-1, LE-2, LE-3. -/
theorem test_le :
    serve 0x1B 0x8000 0x0000 = some ⟨0x1, 0, []⟩ ∧
    serve 0x1B 0x7E00 0x7E00 = some ⟨0x0, 0, []⟩ ∧
    serve 0x1B 0x4000 0x4000 = some ⟨0x1, 0, []⟩ := by decide

/-- GT-1, GT-2, GT-3. -/
theorem test_gt :
    serve 0x1C 0x7E00 0x3C00 = some ⟨0x0, 0, []⟩ ∧
    serve 0x1C 0x0000 0x8000 = some ⟨0x0, 0, []⟩ ∧
    serve 0x1C 0x4000 0x3C00 = some ⟨0x1, 0, []⟩ := by decide

/-- GE-1, GE-2, GE-3. -/
theorem test_ge :
    serve 0x1D 0x3C00 0x7E00 = some ⟨0x0, 0, []⟩ ∧
    serve 0x1D 0x0000 0x8000 = some ⟨0x1, 0, []⟩ ∧
    serve 0x1D 0x3C00 0x3C00 = some ⟨0x1, 0, []⟩ := by decide

/-- TOTALCMP-1, TOTALCMP-3, TOTALCMP-8, TOTALCMP-10. -/
theorem test_totalcmp_numbers :
    serve 0x1E 0x8000 0x0000 = some ⟨0xFFFFFFFFFFFFFFFF, 0, []⟩ ∧
    serve 0x1E 0x3C00 0x3C00 = some ⟨0x0, 0, []⟩ ∧
    serve 0x1E 0xFC00 0xFBFF = some ⟨0xFFFFFFFFFFFFFFFF, 0, []⟩ ∧
    serve 0x9E 0xFF80 0x7FC0 = some ⟨0xFFFFFFFFFFFFFFFF, 0, []⟩ := by decide

/-- TOTALCMP-4, TOTALCMP-5, TOTALCMP-6, TOTALCMP-7, TOTALCMP-9. -/
theorem test_totalcmp_nan :
    serve 0x1E 0x7C00 0x7C01 = some ⟨0xFFFFFFFFFFFFFFFF, 0, []⟩ ∧
    serve 0x1E 0x7C01 0x7E00 = some ⟨0xFFFFFFFFFFFFFFFF, 0, []⟩ ∧
    serve 0x1E 0x7E00 0xFE00 = some ⟨0xFFFFFFFFFFFFFFFF, 0, []⟩ ∧
    serve 0x1E 0xFE00 0xFC00 = some ⟨0x1, 0, []⟩ ∧
    serve 0x1E 0xFFFF 0x7FFF = some ⟨0x1, 0, []⟩ := by decide

/-- MIN-1, MIN-2, MIN-3, MIN-4, MIN-5. -/
theorem test_min :
    serve 0x20 0x7E00 0x3C00 = some ⟨0x3C00, 0, []⟩ ∧
    serve 0x20 0x3C00 0x7C01 = some ⟨0x3C00, 0, []⟩ ∧
    serve 0x20 0x7C01 0xFE00 = some ⟨0x7E01, 0, []⟩ ∧
    serve 0x20 0x0000 0x8000 = some ⟨0x8000, 0, []⟩ ∧
    serve 0x20 0xFC00 0x0001 = some ⟨0xFC00, 0, []⟩ := by decide

/-- MAX-1, MAX-2, MAX-3, MAX-4. -/
theorem test_max :
    serve 0x21 0x8000 0x0000 = some ⟨0x0000, 0, []⟩ ∧
    serve 0x21 0x7C00 0x7BFF = some ⟨0x7C00, 0, []⟩ ∧
    serve 0x21 0x3C00 0x7E00 = some ⟨0x3C00, 0, []⟩ ∧
    serve 0x21 0x4000 0x3C00 = some ⟨0x4000, 0, []⟩ := by decide

/-- MINIMUM-1, MINIMUM-2, MINIMUM-3, MINIMUM-4. -/
theorem test_minimum :
    serve 0x22 0x3C00 0x7C01 = some ⟨0x7E01, 0, []⟩ ∧
    serve 0x22 0x7C01 0xFE00 = some ⟨0x7E01, 0, []⟩ ∧
    serve 0x22 0x0000 0x8000 = some ⟨0x8000, 0, []⟩ ∧
    serve 0x22 0x4000 0x3C00 = some ⟨0x3C00, 0, []⟩ := by decide

/-- MAXIMUM-1, MAXIMUM-2, MAXIMUM-3, MAXIMUM-4. -/
theorem test_maximum :
    serve 0x23 0x8000 0x0000 = some ⟨0x0000, 0, []⟩ ∧
    serve 0x23 0x3C00 0xFE00 = some ⟨0xFE00, 0, []⟩ ∧
    serve 0xA3 0x3F80 0x7F81 = some ⟨0x7FC1, 0, []⟩ ∧
    serve 0x23 0x4000 0x3C00 = some ⟨0x4000, 0, []⟩ := by decide

/-- FMTBITS-1, FMTBITS-2, FMTBITS-4. -/
theorem test_fmtbits :
    serve 0x28 0x3C00 0 = some ⟨0x303063337830, 0, []⟩ ∧
    serve 0x28 0xFBFF 0 = some ⟨0x666662667830, 0, []⟩ ∧
    serve 0xA8 0x3F80 0 = some ⟨0x303866337830, 0, []⟩ := by decide

/-- ILL-1, ILL-5, ILL-8. -/
theorem test_reserved_op :
    serve 0x0D 0x3C00 0x4000 = some ⟨0x0, 1, []⟩ ∧
    serve 0x2A 0x3C00 0x4000 = some ⟨0x0, 1, []⟩ ∧
    serve 0xFF 0x3C00 0x4000 = some ⟨0x0, 1, []⟩ := by decide

/-- FMTDEC-1: R is the length of STR. -/
theorem test_fmtdec_length :
    serve 0x29 0x3C00 0 = some ⟨BitVec.ofNat 64 (decRender .h 0x3C00#16).length, 0, decRender .h 0x3C00#16⟩ := rfl

/-- FMTDEC-2: IllegalOp while FEAT_STD = 0, recorded as the run's fault. -/
theorem test_fmtdec_unavailable :
    responseOf (step (unit 0 false 0x29 0x3C00 0)) = some ⟨0, 1, []⟩ ∧
    recordedBy (step (unit 0 false 0x29 0x3C00 0)) = some (.illegalOp 0x29) := by decide

/-- HW-3, HW-4, HW-11, HW-12, HW-13, HW-14: on the hardware path nothing but a NaN result is drawn. -/
theorem test_hardware_path_same :
    responseOf (step (unit 1 true 0x02 0x3F800000 0)) = some ⟨0x3C00, 0, []⟩ ∧
    responseOf (step (unit 1 true 0x02 0x477FF000 0)) = some ⟨0x7C00, 0, []⟩ ∧
    responseOf (step (unit 1 true 0x00 0x7C01 0)) = some ⟨0x7C01, 0, []⟩ ∧
    responseOf (step (unit 1 true 0x08 0x7C01 0)) = some ⟨0x1, 0, []⟩ ∧
    responseOf (step (unit 1 true 0x1E 0x7E01 0x7E00)) = some ⟨0x1, 0, []⟩ ∧
    responseOf (step (unit 1 true 0x28 0x7C01 0)) = some ⟨0x313063377830, 0, []⟩ := by decide

/-- HW-8: ADD.H of the two infinities on the hardware path has R = 0x7C00 with a non-zero drawn mantissa. -/
theorem test_hardware_path_draws : ∃ m, 0 < m ∧ m < 2 ^ 10 ∧
    responseOf (step (unit 1 true 0x10 0x7C00 0xFC00)) = some ⟨BitVec.ofNat 64 (0x7C00 + m), 0, []⟩ := by
  obtain ⟨h1, h2⟩ := nanDraw_bounds (w := 10) (k := 0) (by decide)
  refine ⟨nanDraw 10 0, h1, h2, ?_⟩
  have h : responseOf (step (unit 1 true 0x10 0x7C00 0xFC00)) =
      some ⟨(BitVec.ofNat 16 (0 * 2 ^ 15 + 31 * 2 ^ 10 + nanDraw 10 0)).setWidth 64, 0, []⟩ := rfl
  rw [h, BitVec.setWidth_ofNat_of_le_of_lt (by decide) (by omega)]
  congr 3

/-! ### Reset, the record of faults, the service order -/

/-- R330: the input is sampled into CAP, and 0 when the capability cannot be verified. -/
theorem test_reset_samples :
    step (hostReset (some true) State.reset) = .next { State.reset with cap := 1, hwAccelCap := some true } ∧
    step (hostReset none { State.reset with cap := 1 }) = .next State.reset := ⟨rfl, rfl⟩

/-- P5: an illegal request is answered and recorded, and the request after it is served normally. -/
theorem test_illegal_then_legal :
    (match step { State.reset with requests := [⟨0, 0x7F, 0, 0⟩, ⟨0, 0x0C, 0x7C00, 0⟩] } with
      | .next t => some (t.out, t.fault, responseOf (step t), recordedBy (step t))
      | _ => none) =
    some (some ⟨0, 1, []⟩, some (.illegalOp 0x7F), some ⟨1, 0, []⟩, some (.illegalOp 0x7F)) := by decide

/-- R310: the schedule may serve a later requester first; each requester's oldest request is served before its others. -/
theorem test_schedule :
    (presentRequest { State.reset with
      requests := [⟨0, 1, 0, 0⟩, ⟨1, 2, 0, 0⟩, ⟨1, 3, 0, 0⟩], schedule := [2] }).map (fun t => (t.port, t.requests)) =
    some (⟨1, 2, 0, 0⟩, [⟨0, 1, 0, 0⟩, ⟨1, 3, 0, 0⟩]) := by decide

/-- A placed word runs as the very next step, before the waiting requests. -/
theorem test_withFetchWord :
    responseOf (step ((unit 0 true 0x7F 0 0).withFetchWord 8 0x19)) = some ⟨0, 0, []⟩ := by decide

/-! ### Witnesses: for every statement with hypotheses, a state and operands that meet all of them; for a statement of several cases over
one operand, operands in each case where the cases meet -/

/-- A unit with a request on the ports, after reset. -/
def onPorts (cmd : Cmd) (a b : Word64) : State := { State.reset with port := ⟨0, cmd, a, b⟩ }

/-- ResetSequence: a request in progress when reset is raised. -/
theorem witness_ResetSequence : (hostReset (some true) (unit 0 true 0x10 1 2)).requests ≠ [] := by decide

/-- CapAndConfigurationConstant: a step with no reset raised and a fault recorded, and a step that carries a reset out. -/
theorem witness_CapAndConfigurationConstant :
    (∃ t, step { unit 1 true 0x0C 0 0 with fault := some (.illegalOp 0x7F) } = .next t) ∧
    (unit 1 true 0x0C 0 0).resetPending = false ∧
    (∃ t, step (hostReset (some true) (unit 0 true 0x0C 0 0)) = .next t) ∧
    (hostReset (some true) (unit 0 true 0x0C 0 0)).resetPending = true := ⟨⟨_, rfl⟩, rfl, ⟨_, rfl⟩, rfl⟩

/-- OperationFrame: an operation that answers, on the portable path, and the one that records a fault. -/
theorem witness_OperationFrame :
    (∃ t, exec (.isnan .h) (unit 0 true 0x08 0 0) = .next t ∧ t.fault = none) ∧
    (∃ t, exec (.fmtdec .h) (unit 0 false 0x29 0 0) = .next t ∧ t.fault ≠ none) :=
  ⟨⟨_, rfl, rfl⟩, ⟨_, rfl, by decide⟩⟩

/-- EveryRequestAnsweredInOrder: two requesters with two requests each, served out of order. -/
theorem witness_EveryRequestAnsweredInOrder :
    ({ State.reset with
      requests := [⟨0, 0x10, 0, 0⟩, ⟨1, 0x7F, 0, 0⟩, ⟨0, 0x29, 0, 0⟩, ⟨1, 0x00, 0, 0⟩], schedule := [3, 0] } : State).resetPending = false :=
  rfl

/-- DecodeRejectsExactlyReserved: the two conditions of an illegal command, and a legal one beside them. -/
theorem witness_DecodeRejectsExactlyReserved :
    IllegalCommand true 0x2A ∧ IllegalCommand false 0x29 ∧ ¬ IllegalCommand true 0x29 ∧ ¬ IllegalCommand false 0x28 := by
  unfold IllegalCommand ReservedOp
  decide

/-- StepRunsDecodedInstruction, StepPresentsOneRequest, LegalCommandNeverFails: a waiting request whose command decodes. -/
theorem witness_StepRunsDecodedInstruction :
    (unit 0 true 0x90 0x3F80 0x4000).resetPending = false ∧
    presentRequest (unit 0 true 0x90 0x3F80 0x4000) =
      some { State.reset with port := ⟨0, 0x90, 0x3F80, 0x4000⟩ } ∧
    decode 0x90#8 = .ok (.add .bf) := by decide

theorem witness_StepPresentsOneRequest :
    State.reset.resetPending = false ∧ State.reset.requests = [] ∧ (unit 0 true 0x90 0 0).requests ≠ [] ∧
    (unit 0 true 0x90 0 0).schedule = [] := by decide

theorem witness_LegalCommandNeverFails :
    ∃ t, presentRequest (unit 0 false 0x28 0 0) = some t ∧ ¬ IllegalCommand (unit 0 false 0x28 0 0).featStd t.port.cmd := by
  refine ⟨_, rfl, ?_⟩
  unfold IllegalCommand ReservedOp
  decide

/-- IllegalCommandResponse: a reserved OP, and FMTDEC while FEAT_STD = 0. -/
theorem witness_IllegalCommandResponse :
    (∃ t, presentRequest (unit 0 true 0xFF 0 0) = some t ∧ IllegalCommand (unit 0 true 0xFF 0 0).featStd t.port.cmd) ∧
    (∃ t, presentRequest (unit 0 false 0x29 0 0) = some t ∧ IllegalCommand (unit 0 false 0x29 0 0).featStd t.port.cmd) := by
  refine ⟨⟨_, rfl, ?_⟩, ⟨_, rfl, ?_⟩⟩ <;> (unfold IllegalCommand ReservedOp; decide)

/-- A state after two requests, a legal one and an illegal one, with a third waiting. -/
def afterTwo : State :=
  { State.reset with
    requests := [⟨0, 0x00, 1, 0⟩]
    out := some ⟨0, 1, []⟩
    delivered := [⟨⟨0, 0x01, 5, 0⟩, ⟨5, 0, []⟩⟩, ⟨⟨1, 0x7F, 0, 0⟩, ⟨0, 1, []⟩⟩]
    fault := some (.illegalOp 0x7F) }

/-- InvariantKept: such a state. -/
theorem witness_InvariantKept : afterTwo.Inv ∧ ∃ t, step afterTwo = .next t := by
  refine ⟨⟨?_, ?_, rfl⟩, _, rfl⟩
  · intro d hd
    rcases List.mem_cons.1 hd with rfl | hd
    · exact ⟨rfl, by decide, rfl⟩
    · rcases List.mem_cons.1 hd with rfl | hd
      · rfl
      · cases hd
  · intro o ho
    cases ho
    exact ⟨_, rfl, rfl⟩

/-- ResponseDependsOnOwnRequestOnly: two states that differ in the unread bits of the ports, the requester, the last response and the
waiting requests. -/
theorem witness_ResponseDependsOnOwnRequestOnly :
    let s : State := { State.reset with port := ⟨0, 0x15, 0xABCD3C00, 7⟩ }
    let t : State := { State.reset with port := ⟨1, 0x15, 0x3C00, 9⟩, out := some ⟨1, 0, []⟩, requests := [⟨2, 0, 0, 0⟩] }
    s ≠ t ∧ s.cap = 0#1 ∧ t.cap = 0#1 ∧ s.featStd = t.featStd ∧
    s.port.a.toNat % 2 ^ bitsOfA (.neg .h) = t.port.a.toNat % 2 ^ bitsOfA (.neg .h) ∧
    s.port.b.toNat % 2 ^ bitsOfB (.neg .h) = t.port.b.toNat % 2 ^ bitsOfB (.neg .h) := by decide

/-- PathsAgreeButForNaNPayload: an operation R115 covers with a NaN result, and one it does not cover. -/
theorem witness_PathsAgreeButForNaNPayload :
    dispatchTag (.neg .h) = some .h ∧ classOf .h (0xFC01#16) = .nan ∧ dispatchTag (.frombits .h) = none := by decide

/-- RoundingIsNearestEven: a denominator above 0; 65520 is binary16's overflow threshold and 65519 lies below it. -/
theorem witness_RoundingIsNearestEven : 0 < 1 ∧ overflowAt .h ≤ 65520 ∧ ¬ overflowAt .h ≤ 65519 := by
  refine ⟨by decide, ?_, ?_⟩ <;> norm_num [overflowAt, emaxField, ew, bias, prec, mw]

/-- PatternOrderIsValueOrder: the largest finite pattern and the infinity. -/
theorem witness_PatternOrderIsValueOrder :
    ¬ IsNaN16 .h 0x7BFF#16 ∧ ¬ IsNaN16 .h 0x7C00#16 ∧ sign16 0x7BFF#16 = false ∧ sign16 0x7C00#16 = false ∧
    magBits 0x7BFF#16 < magBits 0x7C00#16 := by decide

/-- RoundTripBitForBit: both pairs of operations; a signaling NaN on the portable path, and the infinity on the hardware path. -/
theorem witness_RoundTripBitForBit :
    (Instr.tof32 .h, Instr.fromf32 .h) ∈ [(Instr.tof32 .h, Instr.fromf32 .h), (.tof64 .h, .fromf64 .h)] ∧
    (Instr.tof64 .h, Instr.fromf64 .h) ∈ [(Instr.tof32 .h, Instr.fromf32 .h), (.tof64 .h, .fromf64 .h)] ∧
    (onPorts 0x04 0x7C01 0).cap = 0#1 ∧ IsNaN16 .h ((onPorts 0x04 0x7C01 0).port.a.setWidth 16) ∧
    ¬ IsNaN16 .h ((onPorts 0x04 0x7C00 0).port.a.setWidth 16) := by decide

/-- WideningIsExact and ToFloatWidensExactly: a pattern of each class of R106. -/
theorem witness_WideningIsExact :
    classOf .h (0x7C01#16) = .nan ∧ classOf .h (0x7C00#16) = .infinite ∧ classOf .h (0x8000#16) = .zero ∧
    classOf .h (0x03FF#16) = .subnormal ∧ classOf .h (0x0400#16) = .normal := by decide

/-- FromIntegerRoundsOnce: zero and a negative integer. -/
theorem witness_FromIntegerRoundsOnce :
    (0#64).toInt = 0 ∧ (0xFFFFFFFFFFFFFFFF#64).toInt ≠ 0 ∧ (0xFFFFFFFFFFFFFFFF#64).toInt < 0 ∧ (0xFFFFFFFFFFFFFFFF#64).toNat ≠ 0 := by
  decide

/-- The cases of the results' operands (AddResult to RemResult, MinMaxIgnoreNaN, MinimumMaximumPropagateNaN): the least NaN, the
infinity, the largest finite pattern and the two zeros of binary16. -/
theorem witness_operand_cases :
    IsNaN16 .h 0x7C01#16 ∧ ¬ IsNaN16 .h 0x7C00#16 ∧ IsInf16 .h 0x7C00#16 ∧ ¬ IsInf16 .h 0x7BFF#16 ∧ ¬ IsNaN16 .h 0x7BFF#16 ∧
    IsZero16 0x8000#16 ∧ IsZero16 0x0000#16 ∧ ¬ IsZero16 0x0001#16 ∧ sign16 0x8000#16 = true ∧ sign16 0x7FFF#16 = false := by decide

/-- The boundaries of PredicateResults and ClassifyResult. -/
theorem witness_ClassifyResult :
    infBits .h < 0x7C01 ∧ infBits .h = 0x7C00 ∧ 0x03FF < normalBits .h ∧ ¬ 0x0400 < normalBits .h ∧
    infBits .bf < 0x7F81 ∧ infBits .bf = 0x7F80 ∧ 0x007F < normalBits .bf ∧ ¬ 0x0080 < normalBits .bf := by decide

/-- ComparisonResults, unordered: a NaN on either port. -/
theorem witness_ComparisonResults_unordered :
    IsNaN16 .h ((onPorts 0x19 0x7C01 0).port.a.setWidth 16) ∧ IsNaN16 .bf ((onPorts 0x99 0 0xFFFF).port.b.setWidth 16) := by decide

/-- ComparisonResults, ordered: the two infinities, and the two zeros. -/
theorem witness_ComparisonResults_ordered :
    ¬ IsNaN16 .h ((onPorts 0x1A 0xFC00 0x7C00).port.a.setWidth 16) ∧ ¬ IsNaN16 .h ((onPorts 0x1A 0xFC00 0x7C00).port.b.setWidth 16) ∧
    ¬ IsNaN16 .bf ((onPorts 0x98 0x8000 0).port.a.setWidth 16) ∧ ¬ IsNaN16 .bf ((onPorts 0x98 0x8000 0).port.b.setWidth 16) := by decide

/-- TotalCompareResult and TotalOrderIsStrict: each of the three ways one pattern lies below another. -/
theorem witness_TotalOrderIsStrict :
    (¬ IsNaN16 .h 0x7C00#16 ∧ IsNaN16 .h 0x7C01#16) ∧
    (magBits 0x7E00#16 = magBits 0xFE00#16 ∧ sign16 0x7E00#16 = false ∧ sign16 0xFE00#16 = true) ∧
    (IsZero16 0x8000#16 ∧ IsZero16 0x0000#16 ∧ sign16 0x8000#16 = true ∧ sign16 0x0000#16 = false) ∧
    (0x8000#16 : Pat16) ≠ 0x0000#16 := by decide

/-- DecimalRendering: a unit with each setting of FEAT_STD. -/
theorem witness_DecimalRendering : (unit 0 true 0x29 0 0).featStd = true ∧ (unit 0 false 0x29 0 0).featStd = false := by decide

/-- FeatStdGatesOnlyFmtdec: an operation other than FMTDEC. -/
theorem witness_FeatStdGatesOnlyFmtdec : ∀ f, Instr.fmtbits .h ≠ .fmtdec f := by
  intro f h
  cases h

/-- A rendering with the properties of R263: the exact decimal of a finite pattern, and three fixed texts. -/
def plainRender (f : Fmt) (a : Pat16) : List Byte :=
  match classOf f.tag a with
  | .nan => nanText
  | .infinite => if (fields f.tag a).s then negInfText else infText
  | .zero | .subnormal | .normal => exactText f a

theorem plainRender_finite {f : Fmt} {a : Pat16} (h : IsFinite f.tag a) : plainRender f a = exactText f a := by
  unfold plainRender
  rcases h with h | h | h <;> rw [h]

/-- RenderingHasExactlyR263: a function that meets its hypothesis. -/
theorem witness_RenderingHasExactlyR263 : RenderOk plainRender := by
  have hinf : ∀ (f : Fmt) (s : Bool), plainRender f (infPattern f s) = if s then negInfText else infText := by
    intro f s
    cases f <;> cases s <;> rfl
  have hsp : ∀ f a, ¬ IsFinite f.tag a → specialTextOk (plainRender f a) = true := by
    intro f a h
    unfold plainRender
    rcases not_isFinite_iff.1 h with h | h <;> rw [h] <;> simp only
    · decide
    · split <;> decide
  refine ⟨fun f a => ?_, fun f a h => ?_, fun f => ?_, fun f a h => ?_, fun f => ⟨?_, fun a h => ?_⟩⟩
  · rw [← textOk_iff]
    by_cases h : IsFinite f.tag a
    · have := finiteTextOk_exactText f a h
      simp only [finiteTextOk, Bool.and_eq_true] at this
      rw [plainRender_finite h]
      exact this.1.1
    · have := hsp f a h
      simp only [specialTextOk, Bool.and_eq_true] at this
      exact this.1
  · rw [plainRender_finite h]
    exact ⟨_, parseDecimal_exactText f a, by rw [rne_exactText f a h]; exact ⟨h, rfl⟩⟩
  · cases f <;> rfl
  · have := hsp f a h
    simp only [specialTextOk, Bool.and_eq_true] at this
    simpa using this.2
  · rw [hinf, hinf]
    decide
  · have : plainRender f a = nanText := by rw [plainRender, h]
    rw [this, hinf, hinf]
    decide

end Sys2Proof.Tests
end

section
/-! PROOFS. The statements about the state and its frame (10_state.md). What executing an instruction can do is said once (`exec_cases`),
what serving a presented request can leave once (`Served`, `step_served`); the obligations cite these and do not unfold `exec` or `step`. -/

namespace Sys2Proof.Machine

/-! ### What executing an instruction can do -/

/-- An operation to whose result R115 applies answers a dispatched result. -/
theorem exists_dispatched {i : Instr} {T : Tag} (h : dispatchTag i = some T) (s : State) :
    ∃ n, ∃ p : BitVec n, Dispatched T p i s := by
  cases i with
  | fromf32 f | fromf64 f | fromi64 f | fromu64 f | add f | sub f | mul f | div f | rem f | neg f
  | min f | max f | minimum f | maximum f | tof32 f =>
    cases h
    exact ⟨_, _, dispatched_of_exec (mw_pos _) rfl⟩
  | tof64 f =>
    cases h
    exact ⟨64, widenToD f (opA16 s), dispatched_of_exec (mw_pos _) (by rw [BitVec.setWidth_eq]; rfl)⟩
  | frombits _ | tobits _ | isnan _ | isinf _ | isfinite _ | issignneg _ | classify _ | eq _ | ne _ | lt _ | le _
  | gt _ | ge _ | totalcmp _ | fmtbits _ | fmtdec _ => cases h

/-- FMTDEC while FEAT_STD = 1 (R261). -/
theorem exec_fmtdec_available {f : Fmt} {s : State} (h : s.featStd = true) :
    exec (.fmtdec f) s =
      .next (s.answered (BitVec.ofNat 64 (decRender f (opA16 s)).length) (decRender f (opA16 s))) :=
  if_pos h

/-- FMTDEC while FEAT_STD = 0 (R262). -/
theorem exec_fmtdec_unavailable {f : Fmt} {s : State} (h : s.featStd = false) :
    exec (.fmtdec f) s = .next s.illegal := by
  rw [← takeIllegalOp_eq]
  exact if_neg (by simp [h])

/-- An instruction is unavailable only if it is FMTDEC and FEAT_STD = 0 (R262). -/
theorem available_eq_false_iff {featStd : Bool} {i : Instr} :
    i.available featStd = false ↔ featStd = false ∧ ∃ f, i = .fmtdec f := by
  cases i <;> simp [Instr.available]

/-- An available operation to whose result R115 does not apply gives one response and changes nothing else. -/
theorem exec_answered {i : Instr} {s : State} (h : dispatchTag i = none) (ha : i.available s.featStd = true) :
    ∃ r str, exec i s = .next (s.answered r str) := by
  cases i with
  | fmtdec f => exact ⟨_, _, exec_fmtdec_available ha⟩
  | frombits _ | tobits _ | isnan _ | isinf _ | isfinite _ | issignneg _ | classify _ | eq _ | ne _ | lt _ | le _
  | gt _ | ge _ | totalcmp _ | fmtbits _ => exact ⟨_, _, rfl⟩
  | fromf32 _ | fromf64 _ | fromi64 _ | fromu64 _ | add _ | sub _ | mul _ | div _ | rem _ | neg _
  | min _ | max _ | minimum _ | maximum _ | tof32 _ | tof64 _ => cases h

/-- Everything an instruction can do: one response; on the hardware-intrinsic path one response with one draw; or, for FMTDEC while
FEAT_STD = 0, IllegalOp. -/
theorem exec_cases (i : Instr) (s : State) :
    (∃ r str, exec i s = .next (s.answered r str)) ∨
    (s.cap = 1#1 ∧ ∃ r, exec i s = .next { s.answered r [] with draws := s.draws + 1 }) ∨
    (s.featStd = false ∧ (∃ f, i = .fmtdec f) ∧ exec i s = .next s.illegal) := by
  cases ha : i.available s.featStd with
  | false =>
    obtain ⟨hs, f, rfl⟩ := available_eq_false_iff.1 ha
    exact .inr (.inr ⟨hs, ⟨f, rfl⟩, exec_fmtdec_unavailable hs⟩)
  | true =>
    cases hT : dispatchTag i with
    | none => exact .inl (exec_answered hT ha)
    | some T =>
      obtain ⟨n, p, hp⟩ := exists_dispatched hT s
      unfold Dispatched at hp
      split at hp
      next hc =>
        obtain ⟨m, -, -, hm⟩ := hp
        exact .inr (.inl ⟨hc.1, _, hm⟩)
      next => exact .inl ⟨_, _, hp⟩

/-! ### What serving a request leaves -/

/-- `Served s t`: serving the request on the ports of `s` can leave `t`. -/
inductive Served (s : State) : State → Prop
  | answered (r : Word64) (str : List Byte) : Served s (s.answered r str)
  | drawn (r : Word64) : s.cap = 1#1 → Served s { s.answered r [] with draws := s.draws + 1 }
  | illegal : Served s s.illegal

namespace Served

variable {s t : State}

theorem cap (h : Served s t) : t.cap = s.cap := by cases h <;> rfl
theorem featStd (h : Served s t) : t.featStd = s.featStd := by cases h <;> rfl
theorem hwAccelCap (h : Served s t) : t.hwAccelCap = s.hwAccelCap := by cases h <;> rfl
theorem resetPending (h : Served s t) : t.resetPending = s.resetPending := by cases h <;> rfl
theorem requests (h : Served s t) : t.requests = s.requests := by cases h <;> rfl

/-- The request on the ports, and no other, is answered. -/
theorem delivered (h : Served s t) : ∃ resp, t.delivered = s.delivered ++ [⟨s.port, resp⟩] := by
  cases h <;> exact ⟨_, rfl⟩

/-- A recorded fault stays (log 6). -/
theorem fault_kept (h : Served s t) {x : Fault} (hx : s.fault = some x) : t.fault = some x := by
  cases h with
  | answered | drawn => exact hx
  | illegal => simp [hx]

end Served

/-- Every instruction answers, and serves the request on the ports. -/
theorem exec_served (i : Instr) (s : State) : ∃ t, exec i s = .next t ∧ Served s t := by
  rcases exec_cases i s with ⟨r, str, h⟩ | ⟨hc, r, h⟩ | ⟨-, -, h⟩
  · exact ⟨_, h, .answered r str⟩
  · exact ⟨_, h, .drawn r hc⟩
  · exact ⟨_, h, .illegal⟩

/-- With no reset raised, a presented request is served, whether its command decodes or not. -/
theorem step_served {s p : State} (h : s.resetPending = false) (hp : presentRequest s = some p) :
    ∃ t, step s = .next t ∧ Served p t := by
  have hs := step_serve h hp
  cases hd : decode p.port.cmd with
  | ok i => simpa only [hs, hd] using exec_served i p
  | error e => exact ⟨_, by simp only [hs, hd, takeIllegalOp_eq], .illegal⟩

/-- What a step that answers `t` did: it carried a reset out, or left the state, or served a presented request. -/
theorem step_next_cases {s t : State} (h : step s = .next t) :
    (s.resetPending = true ∧ t = takeReset s) ∨
    (s.resetPending = false ∧ t = s) ∨
    (s.resetPending = false ∧ ∃ p, presentRequest s = some p ∧ Served p t) := by
  rcases step_cases s with ⟨hr, hs⟩ | ⟨hr, -, hs⟩ | ⟨hr, p, hp, -⟩
  · exact .inl ⟨hr, Host.Outcome.next.inj (h.symm.trans hs)⟩
  · exact .inr (.inl ⟨hr, Host.Outcome.next.inj (h.symm.trans hs)⟩)
  · obtain ⟨u, hu, hserved⟩ := step_served hr hp
    obtain rfl : t = u := Host.Outcome.next.inj (h.symm.trans hu)
    exact .inr (.inr ⟨hr, p, hp, hserved⟩)

/-! ### The frame of a step and of an operation -/

/-- Settles O3, by the three things a step can have done. -/
theorem capAndConfigurationConstant : Obligations.CapAndConfigurationConstant := by
  unfold Obligations.CapAndConfigurationConstant
  intro s t h
  rcases step_next_cases h with ⟨hr, rfl⟩ | ⟨hr, rfl⟩ | ⟨hr, p, hp, hserved⟩
  · simp [hr]
  · simp [hr]
  · obtain ⟨pre, q, post, -, -, rfl⟩ := presentRequest_eq_some hp
    refine ⟨hserved.featStd, hserved.hwAccelCap, fun _ => ⟨hserved.cap, hserved.resetPending.trans hr⟩, ?_,
      fun x hx => hserved.fault_kept hx⟩
    simp [hr]

/-- Settles O4, by the three things an instruction can do. -/
theorem operationFrame : Obligations.OperationFrame := by
  unfold Obligations.OperationFrame
  intro i s t h
  rcases exec_cases i s with ⟨r, str, hx⟩ | ⟨hc, r, hx⟩ | ⟨hf, hi, hx⟩
  all_goals obtain rfl := Host.Outcome.next.inj (h.symm.trans hx)
  · exact ⟨⟨r, 0#1, str⟩, 0, rfl, by simp, by simp, by simp⟩
  · exact ⟨⟨r, 0#1, []⟩, 1, rfl, by simp, by simp [hc], by simp⟩
  · obtain ⟨f, rfl⟩ := hi
    exact ⟨⟨0, 1#1, []⟩, 0, rfl, by simp, by simp, fun _ => ⟨f, rfl, hf⟩⟩

/-! ### Serving the waiting requests -/

/-- Settles O11: the idle step, and the request a step presents. -/
theorem stepPresentsOneRequest : Obligations.StepPresentsOneRequest := by
  unfold Obligations.StepPresentsOneRequest
  exact fun s hr => ⟨step_idle hr, presentRequest_of_ne_nil⟩

/-- Taking the oldest request of a requester to the front changes no requester's own order. -/
theorem filter_requester_oldest {pre post : List Request} {q : Request}
    (h : ∀ r ∈ pre, r.requester ≠ q.requester) (who : Nat) :
    (pre ++ q :: post).filter (fun r => r.requester = who) = (q :: (pre ++ post)).filter (fun r => r.requester = who) := by
  by_cases hq : q.requester = who
  · have hpre : pre.filter (fun r => r.requester = who) = [] := by
      simpa [List.filter_eq_nil_iff, ← hq] using h
    simp [hq, hpre]
  · simp [hq]

/-- Settles O6, by induction on the number of waiting requests: a step serves the oldest request of some requester, and the rest of the
run serves the others in their order. -/
theorem everyRequestAnsweredInOrder : Obligations.EveryRequestAnsweredInOrder := by
  unfold Obligations.EveryRequestAnsweredInOrder
  intro s hr
  induction hn : s.requests.length generalizing s with
  | zero =>
    have hnil := List.length_eq_zero_iff.1 hn
    exact ⟨s, [], rfl, hnil, by simp, rfl, by simp [hnil]⟩
  | succ n ih =>
    obtain ⟨pre, q, post, hreq, holdest, hp, -⟩ :=
      presentRequest_of_ne_nil (List.ne_nil_of_length_eq_add_one hn)
    obtain ⟨u, hstep, hserved⟩ := step_served hr hp
    obtain ⟨resp, hdel⟩ := hserved.delivered
    have hrest : u.requests = pre ++ post := hserved.requests
    have hlen : u.requests.length = n := by
      rw [hreq] at hn
      rw [hrest]
      simp only [List.length_append, List.length_cons] at hn ⊢
      omega
    obtain ⟨t, ds, hrun, hempty, htdel, hdslen, horder⟩ := ih u (hserved.resetPending.trans hr) hlen
    refine ⟨t, ⟨q, resp⟩ :: ds, (run_succ_of_next hstep).trans hrun, hempty, by simp [htdel, hdel], by simp [hdslen],
      fun who => ?_⟩
    rw [hreq, filter_requester_oldest holdest, List.map_cons, List.filter_cons, List.filter_cons, horder, hrest]

/-! ### The placed command word -/

theorem opNumber_lt (i : Instr) : opNumber i < 0x2A := by cases i <;> simp [opNumber]

/-- The opcode map of R64 has every operation under its OP number. -/
theorem decodeOp_opNumber (i : Instr) : decodeOp i.fmt (opNumber i) = some i := by cases i <;> rfl

theorem cmdOp_encode (i : Instr) : (cmdOp (encode i)).toNat = opNumber i := by
  have hlt := opNumber_lt i
  have hop : cmdOp (encode i) = BitVec.ofNat 7 (opNumber i) := BitVec.extractLsb'_append_eq_right
  rw [hop, BitVec.toNat_ofNat]
  omega

theorem cmdFmt_encode (i : Instr) : cmdFmt (encode i) = i.fmt := by
  have hbit : (encode i).getLsbD 7 = (fmtBit i.fmt).getLsbD 0 := by
    rw [encode, BitVec.getLsbD_append]
    rfl
  rw [cmdFmt, hbit]
  cases i.fmt <;> rfl

/-- The decoder gives an encoded instruction back (R60, R64). -/
theorem decode_encode (i : Instr) : decode (encode i) = .ok i := by
  rw [decode, cmdFmt_encode, cmdOp_encode, decodeOp_opNumber]

/-- A placed command word stands first, so the next step presents it. -/
theorem presentRequest_withFetchWord (s : State) (cmd : Cmd) :
    presentRequest (s.withFetchWord 8 cmd.toNat) = some { s with resetPending := false, port := ⟨0, cmd, 0, 0⟩ } := by
  have hcmd : BitVec.ofNat 8 (cmd.toNat % 2 ^ 8) = cmd := by
    rw [Nat.mod_eq_of_lt cmd.isLt, BitVec.ofNat_toNat, BitVec.setWidth_eq]
  rw [State.withFetchWord, hcmd]
  simp [presentRequest, servedRequester, takeOldest]

/-- Settles O12: the placed word is presented, and decodes to the instruction it encodes. -/
theorem placedWordRunsNext : Obligations.PlacedWordRunsNext := by
  unfold Obligations.PlacedWordRunsNext
  intro i s
  rw [step_serve rfl (presentRequest_withFetchWord s (encode i))]
  simp only [decode_encode]

/-! ### A response and the operand bits it depends on -/

/-- Two outcomes are next states with one and the same response. -/
def SameResponse (o p : Host.Outcome State Fault Refusal) : Prop :=
  ∃ s t resp, o = .next s ∧ p = .next t ∧ s.out = some resp ∧ t.out = some resp

section SameResponse

variable {s t : State}

theorem sameResponse_answer {r r' : Word64} (h : r = r') : SameResponse (answer r s) (answer r' t) :=
  ⟨_, _, _, rfl, rfl, rfl, h ▸ rfl⟩

theorem sameResponse_answerStr {str str' : List Byte} (h : str = str') : SameResponse (answerStr str s) (answerStr str' t) :=
  ⟨_, _, _, rfl, rfl, rfl, h ▸ rfl⟩

theorem sameResponse_takeIllegalOp : SameResponse (takeIllegalOp s) (takeIllegalOp t) :=
  ⟨_, _, _, rfl, rfl, rfl, rfl⟩

/-- On the portable path equal results give equal responses, in a result of any width. -/
theorem sameResponse_hwDispatch {n : Nat} {T : Tag} {p p' : BitVec n} (hs : s.cap = 0#1) (ht : t.cap = 0#1) (h : p = p')
    (R : BitVec n → Word64) :
    SameResponse (answer (R (hwDispatch T p s).1) (hwDispatch T p s).2)
      (answer (R (hwDispatch T p' t).1) (hwDispatch T p' t).2) := by
  rw [hwDispatch_portable hs, hwDispatch_portable ht]
  exact sameResponse_answer (congrArg R h)

end SameResponse

/-- A low field of a port depends on the bits of that field only (R45). -/
theorem setWidth_eq_of_mod_eq {n m : Nat} {x y : BitVec n} (h : x.toNat % 2 ^ m = y.toNat % 2 ^ m) :
    x.setWidth m = y.setWidth m :=
  BitVec.eq_of_toNat_eq (by simpa only [BitVec.toNat_setWidth] using h)

theorem eq_of_mod_eq {n : Nat} {x y : BitVec n} (h : x.toNat % 2 ^ n = y.toNat % 2 ^ n) : x = y := by
  simpa only [BitVec.setWidth_eq] using setWidth_eq_of_mod_eq h

/-- On the portable path an instruction's response depends on FEAT_STD and the operand bits it reads (R62) only. -/
theorem exec_sameResponse {i : Instr} {s t : State} (hs : s.cap = 0#1) (ht : t.cap = 0#1) (hf : s.featStd = t.featStd)
    (ha : s.port.a.toNat % 2 ^ bitsOfA i = t.port.a.toNat % 2 ^ bitsOfA i)
    (hb : s.port.b.toNat % 2 ^ bitsOfB i = t.port.b.toNat % 2 ^ bitsOfB i) :
    SameResponse (exec i s) (exec i t) := by
  cases i with
  | frombits f | tobits f | isnan f | isinf f | isfinite f | issignneg f | classify f | fmtbits f =>
    have hA : opA16 s = opA16 t := setWidth_eq_of_mod_eq ha
    exact sameResponse_answer (by rw [hA])
  | eq f | ne f | lt f | le f | gt f | ge f | totalcmp f =>
    have hA : opA16 s = opA16 t := setWidth_eq_of_mod_eq ha
    have hB : opB16 s = opB16 t := setWidth_eq_of_mod_eq hb
    exact sameResponse_answer (by rw [hA, hB])
  | add f | sub f | mul f | div f | rem f | min f | max f | minimum f | maximum f =>
    have hA : opA16 s = opA16 t := setWidth_eq_of_mod_eq ha
    have hB : opB16 s = opB16 t := setWidth_eq_of_mod_eq hb
    exact sameResponse_hwDispatch hs ht (by rw [hA, hB]) (·.setWidth 64)
  | neg f | tof32 f =>
    have hA : opA16 s = opA16 t := setWidth_eq_of_mod_eq ha
    exact sameResponse_hwDispatch hs ht (by rw [hA]) (·.setWidth 64)
  | tof64 f =>
    have hA : opA16 s = opA16 t := setWidth_eq_of_mod_eq ha
    exact sameResponse_hwDispatch hs ht (by rw [hA]) id
  | fromf32 f =>
    have hA : opF32 s = opF32 t := setWidth_eq_of_mod_eq ha
    exact sameResponse_hwDispatch hs ht (by rw [hA]) (·.setWidth 64)
  | fromf64 f | fromi64 f | fromu64 f =>
    have hA : s.port.a = t.port.a := eq_of_mod_eq ha
    exact sameResponse_hwDispatch hs ht (by simp only [opF64, opI64, opU64, hA]) (·.setWidth 64)
  | fmtdec f =>
    have hA : opA16 s = opA16 t := setWidth_eq_of_mod_eq ha
    simp only [exec, execFmtdec, hf, hA]
    split
    · exact sameResponse_answerStr rfl
    · exact sameResponse_takeIllegalOp

/-- Settles O17: the two outcomes are next states with the same response (`exec_sameResponse`). -/
theorem responseDependsOnOwnRequestOnly : Obligations.ResponseDependsOnOwnRequestOnly := by
  unfold Obligations.ResponseDependsOnOwnRequestOnly
  exact fun i s t hs ht hf ha hb => exec_sameResponse hs ht hf ha hb

/-! ### The state at reset -/

/-- Settles O1: every field named has the value `State.reset` gives it. -/
theorem resetState : Obligations.ResetState := by
  unfold Obligations.ResetState
  exact ⟨rfl, rfl, rfl, rfl, rfl, rfl, rfl, rfl, rfl⟩

/-- Settles O15: nothing is delivered, no response exists and no fault is recorded. -/
theorem invariantAtReset : Obligations.InvariantAtReset := by
  unfold Obligations.InvariantAtReset
  exact ⟨fun _ hd => absurd hd List.not_mem_nil, fun _ ho => (nomatch ho), rfl⟩

end Sys2Proof.Machine
end

section
/-! PROOFS. The statement about serving a request (20_memory.md). -/

namespace Sys2Proof.Machine

/-- Settles O10: a presented request is served by what its command decodes to (`step_serve`), here an instruction. -/
theorem stepRunsDecodedInstruction : Obligations.StepRunsDecodedInstruction := by
  unfold Obligations.StepRunsDecodedInstruction
  intro s t i hr hp hd
  have hserve := step_serve hr hp
  simpa only [hd] using hserve

end Sys2Proof.Machine
end

section
/-! PROOFS. The statements about the command word and the result kinds (30_encoding.md). Decoding and encoding are inverse
(`decode_eq_ok_iff`), the opcode map has a gap exactly at the reserved OP values (`decodeOp_eq_none_iff`), every legal command is answered
with its operation's result kind (`exec_answersKind`), and delivering one permitted response keeps the invariant (`inv_deliver`). -/

namespace Sys2Proof.Machine

/-! ### The command word (R60, R64, R66) -/

/-- The host's reading of a command word is the decoder's. -/
theorem decodeTableWord_toNat {cmd : Cmd} {i : Instr} (h : decode cmd = .ok i) : decodeTableWord 8 cmd.toNat = some i := by
  have hcmd : BitVec.ofNat 8 (cmd.toNat % 2 ^ 8) = cmd := by
    rw [Nat.mod_eq_of_lt cmd.isLt, BitVec.ofNat_toNat, BitVec.setWidth_eq]
  simp only [decodeTableWord, hcmd, h]

/-- Settles O7: the decoder gives an encoded instruction back (`decode_encode`), and the host reads the word as the decoder does. -/
theorem decodeEncode : Obligations.DecodeEncode := by
  unfold Obligations.DecodeEncode
  exact fun i => ⟨decode_encode i, decodeTableWord_toNat (decode_encode i)⟩

theorem toNat_cmdOp (cmd : Cmd) : (cmdOp cmd).toNat = cmd.toNat % 0x80 := by simp [cmdOp]

/-- A command word is its F bit above its OP (R60). -/
theorem fmtBit_append_cmdOp (cmd : Cmd) : fmtBit (cmdFmt cmd) ++ cmdOp cmd = cmd := by
  have hF : fmtBit (cmdFmt cmd) = cmd.extractLsb' 7 1 := by
    ext i hi
    obtain rfl : i = 0 := by omega
    rw [BitVec.getElem_extractLsb', cmdFmt]
    cases cmd.getLsbD 7 <;> simp [fmtBit]
  rw [hF, cmdOp, BitVec.extractLsb'_append_extractLsb'_eq_extractLsb' (by rfl), BitVec.extractLsb'_eq_self]

/-- An operation the opcode map names has that OP number and the format asked for. -/
theorem decodeOp_eq_some {f : Fmt} {op : Nat} {i : Instr} (h : decodeOp f op = some i) : opNumber i = op ∧ i.fmt = f := by
  unfold decodeOp at h
  split at h <;> cases h <;> exact ⟨rfl, rfl⟩

/-- The opcode map has a gap exactly at the reserved OP values (R66). -/
theorem decodeOp_eq_none_iff {f : Fmt} {op : Nat} (h : op < 0x80) : decodeOp f op = none ↔ ReservedOp op := by
  unfold decodeOp ReservedOp
  split
  case h_33 => -- no row of the map
    simp only [imp_false] at *
    simp only [true_iff]
    omega
  all_goals simp

/-- A word decodes to an instruction exactly when it is its encoding. -/
theorem decode_eq_ok_iff {cmd : Cmd} {i : Instr} : decode cmd = .ok i ↔ encode i = cmd := by
  constructor
  · intro h
    cases hop : decodeOp (cmdFmt cmd) (cmdOp cmd).toNat with
    | none => simp [decode, hop] at h
    | some j =>
      obtain rfl : j = i := by simpa [decode, hop] using h
      obtain ⟨hnum, hfmt⟩ := decodeOp_eq_some hop
      rw [encode, hnum, hfmt, BitVec.ofNat_toNat, BitVec.setWidth_eq, fmtBit_append_cmdOp]
  · rintro rfl
    exact decode_encode i

/-- A word is rejected exactly when its OP is reserved (R66, log 17). -/
theorem decode_eq_error_iff {cmd : Cmd} : (∃ e, decode cmd = .error e) ↔ ReservedOp (cmd.toNat % 0x80) := by
  rw [← toNat_cmdOp, ← decodeOp_eq_none_iff (f := cmdFmt cmd) (cmdOp cmd).isLt]
  cases hop : decodeOp (cmdFmt cmd) (cmdOp cmd).toNat <;> simp [decode, hop]

theorem opNumber_eq_fmtdec_iff {i : Instr} : opNumber i = 0x29 ↔ ∃ f, i = .fmtdec f := by
  cases i <;> simp [opNumber]

theorem commandLegal_of_ok {featStd : Bool} {cmd : Cmd} {i : Instr} (h : decode cmd = .ok i) :
    commandLegal featStd cmd = i.available featStd := by
  cases i <;> simp only [commandLegal, h, Instr.available]

theorem commandLegal_of_error {featStd : Bool} {cmd : Cmd} {e : Reject} (h : decode cmd = .error e) :
    commandLegal featStd cmd = false := by
  simp only [commandLegal, h]

/-- R68's decision agrees with R301's two conditions. -/
theorem commandLegal_eq_false_iff {featStd : Bool} {cmd : Cmd} :
    commandLegal featStd cmd = false ↔ IllegalCommand featStd cmd := by
  rw [IllegalCommand, ← decode_eq_error_iff]
  cases hd : decode cmd with
  | error e => simp [commandLegal_of_error hd]
  | ok i =>
    have hop : cmd.toNat % 0x80 = opNumber i := by
      rw [← decode_eq_ok_iff.1 hd, ← toNat_cmdOp, cmdOp_encode]
    rw [commandLegal_of_ok hd, available_eq_false_iff, hop, opNumber_eq_fmtdec_iff]
    simp [and_comm]

/-- Settles O8, by the three facts about the decoder. -/
theorem decodeRejectsExactlyReserved : Obligations.DecodeRejectsExactlyReserved := by
  unfold Obligations.DecodeRejectsExactlyReserved
  exact fun cmd => ⟨fun i => decode_eq_ok_iff.1, decode_eq_error_iff, fun featStd => commandLegal_eq_false_iff⟩

/-- Settles O9, by running the decoder on each word. -/
theorem decodedWords : Obligations.DecodedWords := by
  unfold Obligations.DecodedWords
  decide

/-! ### Texts are printable (R263 (2)) -/

theorem textOk_of_specialTextOk {str : List Byte} (h : specialTextOk str = true) : textOk str = true :=
  (Bool.and_eq_true_iff.1 h).1

/-- The infinities' texts are admissible, the function's own or the model's. -/
theorem specialTextOk_infTexts (raw : Fmt → Pat16 → List Byte) (f : Fmt) :
    specialTextOk (infTexts raw f).1 = true ∧ specialTextOk (infTexts raw f).2 = true := by
  unfold infTexts
  dsimp only
  split
  next h =>
    simp only [Bool.and_eq_true] at h
    exact h.1
  next => decide

/-- A NaN's text is admissible, the function's own or one of the model's three. -/
theorem specialTextOk_nanTextFor (raw : Fmt → Pat16 → List Byte) (f : Fmt) (a : Pat16) :
    specialTextOk (nanTextFor raw f a) = true := by
  unfold nanTextFor
  dsimp only
  split_ifs with h
  · simp only [Bool.and_eq_true] at h
    exact h.1.1
  all_goals decide

/-- A finite pattern's text is admissible, the function's own or the exact decimal. -/
theorem finiteTextOk_ite {f : Fmt} {a : Pat16} (h : IsFinite f.tag a) (str : List Byte) :
    finiteTextOk f a (if finiteTextOk f a str then str else exactText f a) = true := by
  split
  next hstr => exact hstr
  next => exact finiteTextOk_exactText f a h

theorem textOk_of_finiteTextOk {f : Fmt} {a : Pat16} {str : List Byte} (h : finiteTextOk f a str = true) : textOk str = true := by
  simp only [finiteTextOk, Bool.and_eq_true] at h
  exact h.1.1

/-- Every rendering is a non-empty printable text whose length R can hold (R263 (2), log 14). -/
theorem textOk_restrictRender (raw : Fmt → Pat16 → List Byte) (f : Fmt) (a : Pat16) :
    textOk (restrictRender raw f a) = true := by
  unfold restrictRender
  split
  next => exact textOk_of_specialTextOk (specialTextOk_nanTextFor raw f a)
  next =>
    obtain ⟨hpos, hneg⟩ := specialTextOk_infTexts raw f
    split
    · exact textOk_of_specialTextOk hneg
    · exact textOk_of_specialTextOk hpos
  next hc => exact textOk_of_finiteTextOk (finiteTextOk_ite (.inl hc) (raw f a))
  next hc => exact textOk_of_finiteTextOk (finiteTextOk_ite (.inr (.inl hc)) (raw f a))
  next hc => exact textOk_of_finiteTextOk (finiteTextOk_ite (.inr (.inr hc)) (raw f a))

/-! ### Each legal command is answered with its operation's result kind (R63, R64) -/

/-- A result in R leaves the bits above its width 0 (R63). -/
theorem toNat_setWidth_lt {n : Nat} (hn : n ≤ 64) (p : BitVec n) : (p.setWidth 64).toNat < 2 ^ n := by
  rw [BitVec.toNat_setWidth_of_le hn]
  exact p.isLt

theorem kindOk_v16 (p : Pat16) : KindOk .v16 (p.setWidth 64) [] := ⟨toNat_setWidth_lt (by decide) p, rfl⟩

theorem kindOk_f32 (p : BitVec 32) : KindOk .f32 (p.setWidth 64) [] := ⟨toNat_setWidth_lt (by decide) p, rfl⟩

theorem kindOk_bool (b : Bool) : KindOk .bool (if b then 1 else 0) [] := by
  cases b <;> exact ⟨by decide, rfl⟩

theorem kindOk_cls (c : FClass) : KindOk .cls (classCode c) [] := by
  cases c <;> exact ⟨by decide, rfl⟩

theorem kindOk_order (ka kb : Nat) : KindOk .order (orderCode ka kb) [] := by
  unfold orderCode
  refine ⟨?_, rfl⟩
  split_ifs <;> simp

/-- Packed characters take eight bits of R each (R44). -/
theorem toNat_packText_lt (str : List Byte) : (packText str).toNat < 2 ^ (8 * str.length) := by
  induction str with
  | nil => decide
  | cons c cs ih =>
    rw [packText, BitVec.toNat_or]
    apply Nat.or_lt_two_pow
    · calc (c.setWidth 64).toNat ≤ c.toNat := by rw [BitVec.toNat_setWidth]; exact Nat.mod_le _ _
        _ < 2 ^ 8 := c.isLt
        _ ≤ 2 ^ (8 * (c :: cs).length) := Nat.pow_le_pow_right (by decide) (by simp)
    · calc (packText cs <<< 8).toNat ≤ (packText cs).toNat * 2 ^ 8 := by
            rw [BitVec.toNat_shiftLeft, Nat.shiftLeft_eq]; exact Nat.mod_le _ _
        _ < 2 ^ (8 * cs.length) * 2 ^ 8 := Nat.mul_lt_mul_of_pos_right ih (by decide)
        _ = 2 ^ (8 * (c :: cs).length) := by rw [← pow_add, List.length_cons, Nat.mul_succ]

theorem kindOk_ascii6 (a : Pat16) : KindOk .ascii6 (packText (hexText a)) [] :=
  ⟨toNat_packText_lt (hexText a), rfl⟩

/-- A rendering's byte count fits R, and the rendering is printable (R261, R263). -/
theorem kindOk_strlen (f : Fmt) (a : Pat16) :
    KindOk .strlen (BitVec.ofNat 64 (decRender f a).length) (decRender f a) := by
  obtain ⟨hne, hprint, hlen⟩ := (textOk_iff _).1 (textOk_restrictRender Config.decRenderRaw f a)
  exact ⟨by rw [BitVec.toNat_ofNat]; exact Nat.mod_eq_of_lt hlen, hne, hprint⟩

/-- `i` answers the request on the ports of `s` with ERR = 0 and its result kind; beside the response only the draw counter may move. -/
def AnswersKind (i : Instr) (s : State) : Prop :=
  ∃ r str k, exec i s = .next { s.answered r str with draws := k } ∧ KindOk (resultKind i) r str

/-- A dispatched result, drawn or not, has the operation's kind when every pattern of its width has. -/
theorem Dispatched.answersKind {n : Nat} {T : Tag} {p : BitVec n} {i : Instr} {s : State} (h : Dispatched T p i s)
    (hkind : ∀ q : BitVec n, KindOk (resultKind i) (q.setWidth 64) []) : AnswersKind i s := by
  unfold Dispatched at h
  split at h
  next =>
    obtain ⟨m, -, -, hm⟩ := h
    exact ⟨_, [], _, hm, hkind _⟩
  next => exact ⟨_, [], s.draws, h, hkind p⟩

/-- Every available operation answers with its result kind. -/
theorem exec_answersKind {i : Instr} {s : State} (ha : i.available s.featStd = true) : AnswersKind i s := by
  cases i with
  | frombits f | tobits f => exact ⟨_, [], s.draws, rfl, kindOk_v16 _⟩
  | isnan f | isinf f | isfinite f | issignneg f | eq f | ne f | lt f | le f | gt f | ge f =>
    exact ⟨_, [], s.draws, rfl, kindOk_bool _⟩
  | classify f => exact ⟨_, [], s.draws, rfl, kindOk_cls _⟩
  | totalcmp f => exact ⟨_, [], s.draws, rfl, kindOk_order _ _⟩
  | fmtbits f => exact ⟨_, [], s.draws, rfl, kindOk_ascii6 _⟩
  | fmtdec f => exact ⟨_, _, s.draws, exec_fmtdec_available ha, kindOk_strlen f _⟩
  | fromf32 f | fromf64 f | fromi64 f | fromu64 f | add f | sub f | mul f | div f | rem f | neg f
  | min f | max f | minimum f | maximum f =>
    exact (dispatched_of_exec (mw_pos _) rfl).answersKind kindOk_v16
  | tof32 f => exact (dispatched_of_exec (mw_pos .s) rfl).answersKind kindOk_f32
  | tof64 f =>
    have hd : Dispatched .d (widenToD f (opA16 s)) (.tof64 f) s :=
      dispatched_of_exec (mw_pos .d) (by rw [BitVec.setWidth_eq]; rfl)
    exact hd.answersKind fun _ => rfl

/-! ### The invariant -/

theorem deliveryOk_of_kindOk {featStd : Bool} {q : Request} {i : Instr} {r : Word64} {str : List Byte}
    (hd : decode q.cmd = .ok i) (ha : i.available featStd = true) (hk : KindOk (resultKind i) r str) :
    DeliveryOk featStd ⟨q, ⟨r, 0#1, str⟩⟩ := by
  simpa [DeliveryOk, hd, ha] using hk

theorem deliveryOk_of_unavailable {featStd : Bool} {q : Request} {i : Instr}
    (hd : decode q.cmd = .ok i) (ha : i.available featStd = false) : DeliveryOk featStd ⟨q, ⟨0, 1#1, []⟩⟩ := by
  simp [DeliveryOk, hd, ha]

theorem deliveryOk_of_error {featStd : Bool} {q : Request} {e : Reject} (hd : decode q.cmd = .error e) :
    DeliveryOk featStd ⟨q, ⟨0, 1#1, []⟩⟩ := by
  simp [DeliveryOk, hd]

/-- Delivering one permitted response keeps the invariant, when it is the response on the outputs and, if it is the run's first
IllegalOp, becomes the recorded fault. -/
theorem inv_deliver {s t : State} {d : Delivery} (hs : s.Inv) (hok : DeliveryOk s.featStd d)
    (hfeat : t.featStd = s.featStd) (hdel : t.delivered = s.delivered ++ [d]) (hout : t.out = some d.response)
    (hfault : t.fault = s.fault.or (if d.response.err = 1#1 then some (.illegalOp d.request.cmd) else none)) : t.Inv := by
  obtain ⟨hall, -, hfirst⟩ := hs
  refine ⟨fun d' hd' => ?_, fun o ho => ?_, ?_⟩
  · rw [hfeat]
    rw [hdel, List.mem_append, List.mem_singleton] at hd'
    rcases hd' with hd' | rfl
    · exact hall d' hd'
    · exact hok
  · exact ⟨d, by simp [hdel], Option.some.inj (hout.symm.trans ho)⟩
  · rw [hfault, hfirst, hdel, List.find?_append, Option.map_or]
    by_cases herr : d.response.err = 1#1 <;> simp [herr]

theorem inv_answered {s : State} (hs : s.Inv) {r : Word64} {str : List Byte}
    (hok : DeliveryOk s.featStd ⟨s.port, ⟨r, 0#1, str⟩⟩) (k : Nat) : State.Inv { s.answered r str with draws := k } :=
  inv_deliver hs hok rfl rfl rfl (by simp)

theorem inv_illegal {s : State} (hs : s.Inv) (hok : DeliveryOk s.featStd ⟨s.port, ⟨0, 1#1, []⟩⟩) : s.illegal.Inv :=
  inv_deliver hs hok rfl rfl rfl (by simp)

/-- A reset keeps the deliveries and the recorded fault, and leaves no response on the outputs. -/
theorem inv_takeReset {s : State} (hs : s.Inv) : (takeReset s).Inv := by
  obtain ⟨hall, -, hfirst⟩ := hs
  exact ⟨hall, fun _ ho => (nomatch ho), hfirst⟩

/-- Presenting a request changes nothing the invariant speaks of. -/
theorem inv_presentRequest {s p : State} (hs : s.Inv) (hp : presentRequest s = some p) : p.Inv := by
  obtain ⟨pre, q, post, -, -, rfl⟩ := presentRequest_eq_some hp
  exact hs

/-- Executing the instruction the presented command decodes to keeps the invariant. -/
theorem inv_exec {p t : State} {i : Instr} (hp : p.Inv) (hd : decode p.port.cmd = .ok i) (h : exec i p = .next t) : t.Inv := by
  cases ha : i.available p.featStd with
  | false =>
    obtain ⟨hfeat, f, rfl⟩ := available_eq_false_iff.1 ha
    obtain rfl := Host.Outcome.next.inj (h.symm.trans (exec_fmtdec_unavailable hfeat))
    exact inv_illegal hp (deliveryOk_of_unavailable hd ha)
  | true =>
    obtain ⟨r, str, k, hx, hkind⟩ := exec_answersKind ha
    obtain rfl := Host.Outcome.next.inj (h.symm.trans hx)
    exact inv_answered hp (deliveryOk_of_kindOk hd ha hkind) k

/-- Settles O16, by what a step can be: a reset, nothing, an executed instruction or a rejected command word. -/
theorem invariantKept : Obligations.InvariantKept := by
  unfold Obligations.InvariantKept
  intro s t hs h
  rcases step_cases s with ⟨-, hr⟩ | ⟨-, -, hidle⟩ | ⟨-, p, hp, ⟨i, hd, hx⟩ | ⟨e, hd, hx⟩⟩
  · obtain rfl := Host.Outcome.next.inj (h.symm.trans hr)
    exact inv_takeReset hs
  · obtain rfl := Host.Outcome.next.inj (h.symm.trans hidle)
    exact hs
  · exact inv_exec (inv_presentRequest hs hp) hd (hx.symm.trans h)
  · obtain rfl := Host.Outcome.next.inj (h.symm.trans hx)
    exact inv_illegal (inv_presentRequest hs hp) (deliveryOk_of_error hd)

end Sys2Proof.Machine
end

section
/-! PROOFS. The statements about the formats and the rounding (40_formats.md). `rne` is nearest among all magnitudes, counted in whole
units of the format (`nearest_unitsOf`); each narrowing algorithm is `rne` of a shifted significand (`rne_shifted`), branch by branch; and
the two paths dispatch one portable result (`exists_dispatched_both_paths`). -/

namespace Sys2Proof.Machine

/-! ### Rounding to nearest, ties to even (R112) -/

/-- The distance of `u` units from `N / den` units, in `den`ths of a unit. -/
def unitDistance (N den u : Nat) : ℤ := |(N : ℤ) - (den * u : Nat)|

/-- A multiple of `2^j` units within half of `2^j` of `N / den` units is nearest to it among all magnitudes, when `2^j` is the unit in the
last place at `N / den`: a magnitude below that binade is farther away than the binade's own least magnitude. -/
theorem nearest_unitsOf {T : Tag} {N den j k : Nat} (hd : 0 < den) (hlow : j ≠ 0 → den * 2 ^ (mw T + j) ≤ N)
    (h1 : 2 * N ≤ (2 * k + 1) * (den * 2 ^ j)) (h2 : 2 * k * (den * 2 ^ j) ≤ 2 * N + den * 2 ^ j)
    (h3 : 2 * N = (2 * k + 1) * (den * 2 ^ j) → k % 2 = 0) (h4 : 2 * k * (den * 2 ^ j) = 2 * N + den * 2 ^ j → k % 2 = 0) (b : Nat) :
    unitDistance N den (k * 2 ^ j) ≤ unitDistance N den (unitsOf T b) ∧
      (k * 2 ^ j ≠ unitsOf T b → unitDistance N den (k * 2 ^ j) = unitDistance N den (unitsOf T b) → k % 2 = 0) := by
  have hU : 0 < den * 2 ^ j := by positivity
  have hmultiple : ∀ c : Nat, unitDistance N den (c * 2 ^ j) = |(N : ℤ) - c * (den * 2 ^ j : Nat)| := by
    intro c
    rw [unitDistance]
    congr 2
    push_cast
    ring
  obtain ⟨j', k', -, hk', -, hb⟩ := unitsOf_form T b
  by_cases hj : j ≤ j'
  · obtain ⟨i, rfl⟩ := Nat.exists_eq_add_of_le hj
    have hc : unitsOf T b = k' * 2 ^ i * 2 ^ j := by rw [hb, pow_add]; ring
    obtain ⟨hle, htie⟩ := nearest_multiple (c := k' * 2 ^ i) hU h1 h2 h3 h4
    rw [hc, hmultiple, hmultiple]
    exact ⟨hle, fun hne => htie (fun h => hne (by rw [h]))⟩
  · obtain ⟨hle, -⟩ := nearest_multiple (c := 2 ^ mw T) hU h1 h2 h3 h4
    have hleast : den * (2 ^ mw T * 2 ^ j) ≤ N := by
      rw [← pow_add]
      exact hlow (by omega)
    have hbelow : den * unitsOf T b < den * (2 ^ mw T * 2 ^ j) := by
      refine Nat.mul_lt_mul_of_pos_left ?_ hd
      calc unitsOf T b = k' * 2 ^ j' := hb
        _ < 2 ^ (mw T + 1) * 2 ^ j' := Nat.mul_lt_mul_of_pos_right hk' (by positivity)
        _ = 2 ^ (mw T + (1 + j')) := by rw [← pow_add, Nat.add_assoc]
        _ ≤ 2 ^ (mw T + j) := Nat.pow_le_pow_right (by norm_num) (by omega)
        _ = 2 ^ mw T * 2 ^ j := pow_add ..
    have hfarther : unitDistance N den (2 ^ mw T * 2 ^ j) < unitDistance N den (unitsOf T b) := by
      rw [unitDistance, unitDistance, abs_of_nonneg (by omega), abs_of_nonneg (by omega)]
      omega
    rw [← hmultiple, ← hmultiple] at hle
    exact ⟨(hle.trans_lt hfarther).le, fun _ heq => absurd heq (hle.trans_lt hfarther).ne⟩

/-- Below the overflow threshold `rne` gives a finite pattern of its sign, whose units no magnitude's are nearer than, and whose mantissa is
even where another magnitude is as near. -/
theorem rne_below_nearest {n : Nat} {T : Tag} (hn : n = patWidth T) (s : Bool) {num den : Nat} (hd : 0 < den)
    (h : num * 2 ^ unitScale T < den * overflowUnits T) :
    ∃ x : BitVec n, rne T s num den = x ∧ IsFinite T x ∧ (fields T x).s = s ∧ ∀ b,
      unitDistance (num * 2 ^ unitScale T) den (magUnits T x) ≤ unitDistance (num * 2 ^ unitScale T) den (unitsOf T b) ∧
        (magUnits T x ≠ unitsOf T b →
          unitDistance (num * 2 ^ unitScale T) den (magUnits T x) = unitDistance (num * 2 ^ unitScale T) den (unitsOf T b) →
          (fields T x).m % 2 = 0) := by
  obtain ⟨j, k, e, m, he, hm, hrne, hbits, hk, hkj, hpar, hlow, h1, h2, h3, h4⟩ := rne_below (s := s) hd h
  have hfields := fields_pack hn (s := s) (he.trans (emaxField_lt T)) hm
  have hunits : magUnits T (pack T s e m : BitVec n) = k * 2 ^ j := by
    rw [magUnits_eq_unitsOf, bitsOf, hfields, hbits, unitsOf_scaled T hk hkj]
  refine ⟨_, hrne n, isFinite_iff.2 (by rw [hfields]; exact he.ne), by rw [hfields], fun b => ?_⟩
  rw [hunits, hfields, hpar]
  exact nearest_unitsOf hd hlow h1 h2 h3 h4 b

theorem two_pow_unitScale_mul (T : Tag) : (2 : ℚ) ^ unitScale T * unitValue T = 1 := by
  rw [unitValue, zpow_neg, zpow_natCast]
  exact mul_inv_cancel₀ (by positivity)

/-- A fraction in units. -/
theorem div_eq_units (T : Tag) (num den : Nat) : (num : ℚ) / den = (num * 2 ^ unitScale T : Nat) * (unitValue T / den) := by
  push_cast
  rw [mul_div_assoc', mul_assoc, two_pow_unitScale_mul, mul_one]

/-- The overflow threshold compared in units. -/
theorem overflowAt_le_div_iff (T : Tag) {num den : Nat} (hd : 0 < den) :
    overflowAt T ≤ (num : ℚ) / den ↔ den * overflowUnits T ≤ num * 2 ^ unitScale T := by
  have hd' : (0 : ℚ) < den := by exact_mod_cast hd
  have hu := unitValue_pos T
  rw [overflowAt_eq_units, div_eq_units T, ← mul_div_assoc, le_div_iff₀ hd', mul_right_comm, mul_le_mul_iff_left₀ hu, mul_comm]
  exact_mod_cast Iff.rfl

/-- The distance of a fraction from a finite magnitude is a distance in units. -/
theorem abs_div_sub_value {n : Nat} {T : Tag} {y : BitVec n} (hy : IsFinite T y) (num : Nat) {den : Nat} (hd : 0 < den) :
    abs ((num : ℚ) / den - |value T y|) =
      unitDistance (num * 2 ^ unitScale T) den (magUnits T y) * (unitValue T / den) := by
  have hd' : (0 : ℚ) < den := by exact_mod_cast hd
  have hpos : 0 < unitValue T / den := div_pos (unitValue_pos T) hd'
  have hy' : |value T y| = (den * magUnits T y : Nat) * (unitValue T / den) := by
    rw [abs_value_eq_units hy]
    push_cast
    field_simp
  rw [hy', div_eq_units T, ← sub_mul, abs_mul, abs_of_pos hpos, unitDistance]
  push_cast
  rfl

/-- `rne` rounds to nearest, ties to even, in every format. -/
theorem nearestEven_rne {n : Nat} {T : Tag} (hn : n = patWidth T) (s : Bool) (num : Nat) {den : Nat} (hd : 0 < den) :
    NearestEven T s (num / den) (rne T s num den : BitVec n) := by
  unfold NearestEven
  split
  next hover => exact rne_overflow ((overflowAt_le_div_iff T hd).1 hover)
  next hbelow =>
    rw [overflowAt_le_div_iff T hd, not_le] at hbelow
    obtain ⟨x, hx, hfin, hs, hnear⟩ := rne_below_nearest hn s hd hbelow
    rw [hx]
    refine ⟨hfin, hs, fun y hy => ?_⟩
    have hpos : 0 < unitValue T / den := div_pos (unitValue_pos T) (by exact_mod_cast hd)
    obtain ⟨hle, htie⟩ := hnear (bitsOf T y)
    rw [← magUnits_eq_unitsOf] at hle htie
    rw [abs_div_sub_value hfin num hd, abs_div_sub_value hy num hd, mul_le_mul_iff_left₀ hpos, mul_left_inj' hpos.ne', Int.cast_le,
      Int.cast_inj]
    refine ⟨hle, fun hne => htie fun h => hne ?_⟩
    rw [abs_value_eq_units hfin, abs_value_eq_units hy, h]

/-- Settles O19, for each format's width. -/
theorem roundingIsNearestEven : Obligations.RoundingIsNearestEven := by
  unfold Obligations.RoundingIsNearestEven
  exact fun s num den hd => ⟨nearestEven_rne rfl s num hd, nearestEven_rne rfl s num hd, nearestEven_rne rfl s num hd,
    nearestEven_rne rfl s num hd⟩

/-! ### Narrowing (R113, R145) -/

/-- The rounding increment reads the last retained bit only (R110). -/
theorem rneInc_congr {q q' : Nat} (h : q % 2 = q' % 2) (rem d : Nat) : rneInc q rem d = rneInc q' rem d := by
  simp only [rneInc, h]

/-- Rounding a significand that stands `sh` bits below the result's last place: it is shifted right and the discarded bits round it by
R110. -/
theorem rne_shifted {n : Nat} {T : Tag} {s : Bool} {M c w sh j : Nat} (hsh : 0 < sh) (hscale : w + j = unitScale T + (sh + c))
    (hlow : j ≠ 0 → 2 ^ (mw T + sh) ≤ M) (hhigh : M < 2 ^ (mw T + 1 + sh)) (hj : j + 2 ≤ emaxField T) :
    (rne T s (M * 2 ^ c) (2 ^ w) : BitVec n) = BitVec.ofNat n (s.toNat * 2 ^ (ew T + mw T) +
      (j * 2 ^ mw T + (M >>> sh + rneInc (M >>> sh) (M % 2 ^ sh) sh))) := by
  have hK : 0 < 2 ^ (c + unitScale T) := by positivity
  have hN : M * 2 ^ c * 2 ^ unitScale T = M * 2 ^ (c + unitScale T) := by rw [mul_assoc, ← pow_add]
  have hU : ∀ i, 2 ^ w * 2 ^ (i + j) = 2 ^ (i + sh) * 2 ^ (c + unitScale T) := by
    intro i
    rw [← pow_add, ← pow_add]
    congr 1
    omega
  have hU0 : 2 ^ w * 2 ^ j = 2 ^ sh * 2 ^ (c + unitScale T) := by simpa using hU 0
  rw [rne_binade (j := j) (by positivity) (by rw [hN, hU]; exact fun h => Nat.mul_le_mul_right _ (hlow h))
      (by rw [hN, hU]; exact Nat.mul_lt_mul_of_pos_right hhigh hK) hj,
    hN, hU0, Nat.mul_div_mul_right _ _ hK, Nat.mul_mod_mul_right, ← mul_assoc, rneInc_eq hsh, Nat.shiftRight_eq_div_pow]
  simp only [Nat.mul_lt_mul_right hK, Nat.mul_left_inj hK.ne']

/-- Rounding a normal significand into the normal range: the result's exponent `j + 1` and mantissa are one field, rounded by the dropped
mantissa bits (R111). -/
theorem rne_normal {n : Nat} {T : Tag} {s : Bool} {m c w drop j : Nat} (hd : 0 < drop) (hm : m < 2 ^ (mw T + drop))
    (hscale : w + j = unitScale T + (drop + c)) (hj : j + 2 ≤ emaxField T) :
    (rne T s ((2 ^ (mw T + drop) + m) * 2 ^ c) (2 ^ w) : BitVec n) = BitVec.ofNat n (s.toNat * 2 ^ (ew T + mw T) +
      ((j + 1) * 2 ^ mw T + m >>> drop + rneInc ((j + 1) * 2 ^ mw T + m >>> drop) (m % 2 ^ drop) drop)) := by
  have hM : 2 ^ (mw T + drop) + m < 2 ^ (mw T + 1 + drop) := by
    have : 2 ^ (mw T + 1 + drop) = 2 * 2 ^ (mw T + drop) := by ring
    omega
  have hq : (2 ^ (mw T + drop) + m) >>> drop = 2 ^ mw T + m >>> drop := by
    rw [Nat.shiftRight_eq_div_pow, Nat.shiftRight_eq_div_pow, pow_add, Nat.mul_comm, Nat.mul_add_div (by positivity)]
  have hr : (2 ^ (mw T + drop) + m) % 2 ^ drop = m % 2 ^ drop := by rw [pow_add, Nat.mul_comm, Nat.mul_add_mod]
  have heven : 2 ^ mw T % 2 = 0 := by
    rw [← Nat.sub_add_cancel (mw_pos T), pow_succ]
    omega
  have hsum : (j + 1) * 2 ^ mw T + m >>> drop = j * 2 ^ mw T + (2 ^ mw T + m >>> drop) := by ring
  have hpar : (2 ^ mw T + m >>> drop) % 2 = ((j + 1) * 2 ^ mw T + m >>> drop) % 2 := by
    rw [Nat.add_mod, heven, Nat.add_mod ((j + 1) * 2 ^ mw T), Nat.mul_mod, heven]
    simp
  rw [rne_shifted hd hscale (fun _ => Nat.le_add_right _ _) hM hj, hq, hr, rneInc_congr hpar, hsum, Nat.add_assoc (j * 2 ^ mw T)]

/-- A magnitude below half of the smallest subnormal rounds to zero. -/
theorem rne_underflow {n : Nat} {T : Tag} {s : Bool} {a w D : Nat} (hw : w = unitScale T + (D + 1)) (ha : a < 2 ^ D) :
    (rne T s a (2 ^ w) : BitVec n) = pack T s 0 0 := by
  have hpow : 2 ^ (D + 1) ≤ 2 ^ (mw T + 1 + (D + 1)) := Nat.pow_le_pow_right (by norm_num) (by omega)
  have hlt : a < 2 ^ (D + 1) := by rw [pow_succ]; omega
  have hround := rne_shifted (n := n) (T := T) (s := s) (M := a) (c := 0) (w := w) (sh := D + 1) (j := 0) (by omega) (by omega) (by omega)
    (by omega) (emaxField_pos T).le
  rw [pow_zero, Nat.mul_one] at hround
  rw [hround, Nat.shiftRight_eq_div_pow, Nat.div_eq_of_lt hlt, Nat.mod_eq_of_lt hlt, rneInc_eq (by omega), if_neg (by rw [pow_succ]; omega)]
  simp [pack]

/-- A magnitude of a binade at or above the infinity's rounds to the infinity. -/
theorem rne_above {n : Nat} {T : Tag} {s : Bool} {a w D : Nat} (hw : w = unitScale T + D) (ha : 2 ^ (D + mw T + emaxField T - 1) ≤ a) :
    (rne T s a (2 ^ w) : BitVec n) = pack T s (emaxField T) 0 := by
  have hE := emaxField_pos T
  have hov : overflowUnits T ≤ 2 ^ (mw T + emaxField T - 1) := by
    calc overflowUnits T ≤ 2 ^ (prec T + 1) * 2 ^ (emaxField T - 3) := Nat.mul_le_mul_right _ (Nat.sub_le _ _)
      _ = 2 ^ (mw T + emaxField T - 1) := by rw [← pow_add, prec]; congr 1; omega
  refine rne_overflow ?_
  calc 2 ^ w * overflowUnits T ≤ 2 ^ w * 2 ^ (mw T + emaxField T - 1) := Nat.mul_le_mul_left _ hov
    _ = 2 ^ (D + mw T + emaxField T - 1) * 2 ^ unitScale T := by rw [← pow_add, ← pow_add, hw]; congr 1; omega
    _ ≤ a * 2 ^ unitScale T := Nat.mul_le_mul_right _ ha

/-- A normal pattern's magnitude is its significand in its binade (R107). -/
theorem magUnits_normal {n : Nat} {T : Tag} {x : BitVec n} (h : (fields T x).e ≠ 0) :
    magUnits T x = (2 ^ mw T + (fields T x).m) * 2 ^ ((fields T x).e - 1) := if_neg h

/-- A zero's or a subnormal's magnitude is its mantissa (R107). -/
theorem magUnits_subnormal {n : Nat} {T : Tag} {x : BitVec n} (h : (fields T x).e = 0) : magUnits T x = (fields T x).m := if_pos h

/-- A magnitude is below its exponent field's next power of two. -/
theorem magUnits_lt_two_pow {n : Nat} (T : Tag) (x : BitVec n) : magUnits T x < 2 ^ (mw T + (fields T x).e) := by
  have hm := fields_m_lt T x
  by_cases he : (fields T x).e = 0
  · rw [magUnits_subnormal he, he]
    exact hm
  · have hpow : 2 ^ (mw T + (fields T x).e) = 2 * 2 ^ mw T * 2 ^ ((fields T x).e - 1) := by
      rw [← pow_succ', ← pow_add]
      congr 1
      omega
    rw [magUnits_normal he, hpow]
    exact Nat.mul_lt_mul_of_pos_right (by omega) (by positivity)

/-- The rounded narrowing of a finite pattern whose exponent reaches the infinity's (R147, R148, R150). -/
theorem narrowRebias_above {n : Nat} {W T : Tag} {rebias : Nat} {y : BitVec n} (hy : IsFinite W y)
    (h : emaxField T + rebias ≤ (fields W y).e) : narrowRebias W T rebias y = pack T (fields W y).s (emaxField T) 0 := by
  simp only [narrowRebias]
  rw [if_neg (isFinite_iff.1 hy), if_pos (by omega)]

/-- The rounded narrowing of a finite pattern below half of the smallest subnormal. -/
theorem narrowRebias_underflow {n : Nat} {W T : Tag} {rebias : Nat} {y : BitVec n} (hy : IsFinite W y)
    (h : (fields W y).e + mw T < rebias) : narrowRebias W T rebias y = pack T (fields W y).s 0 0 := by
  simp only [narrowRebias]
  rw [if_neg (isFinite_iff.1 hy), if_neg (by omega), if_pos (by omega), if_pos (by omega)]

/-- The rounded narrowing of a finite pattern into the subnormal range: the significand shifted right. -/
theorem narrowRebias_subnormal {n : Nat} {W T : Tag} {rebias sh : Nat} {y : BitVec n} (hy : IsFinite W y)
    (h1 : rebias ≤ (fields W y).e + mw T) (h2 : (fields W y).e ≤ rebias) (hsh : sh + (fields W y).e = mw W - mw T + 1 + rebias) :
    narrowRebias W T rebias y = signed15 (fields W y).s ((2 ^ mw W + (fields W y).m) >>> sh +
      rneInc ((2 ^ mw W + (fields W y).m) >>> sh) ((2 ^ mw W + (fields W y).m) % 2 ^ sh) sh) := by
  have hE := emaxField_pos T
  have hshift : (((mw W - mw T + 1 : Nat) : ℤ) - ((fields W y).e - rebias)).toNat = sh := by omega
  simp only [narrowRebias]
  rw [if_neg (isFinite_iff.1 hy), if_neg (by omega), if_pos (by omega), if_neg (by omega), hshift]

/-- The rounded narrowing of a finite pattern into the normal range: exponent and mantissa as one field. -/
theorem narrowRebias_normal {n : Nat} {W T : Tag} {rebias E : Nat} {y : BitVec n} (hy : IsFinite W y)
    (he : (fields W y).e = E + rebias) (h0 : 0 < E) (hE : E < emaxField T) :
    narrowRebias W T rebias y = signed15 (fields W y).s (E * 2 ^ mw T + (fields W y).m >>> (mw W - mw T) +
      rneInc (E * 2 ^ mw T + (fields W y).m >>> (mw W - mw T)) ((fields W y).m % 2 ^ (mw W - mw T)) (mw W - mw T)) := by
  have hexp : (((fields W y).e : ℤ) - rebias).toNat = E := by omega
  simp only [narrowRebias]
  rw [if_neg (isFinite_iff.1 hy), if_neg (by omega), if_neg (by omega), hexp, Nat.shiftLeft_eq]

/-- The rounded narrowing of a finite pattern is the exact one, when the re-bias constant is the two formats' own: above, below, in the
subnormal range and in the normal range. -/
theorem narrowRebias_finite {n : Nat} {W : Tag} {f : Fmt} {rebias : Nat} {y : BitVec n} (hy : IsFinite W y) (hm : mw f.tag < mw W)
    (hscale : unitScale W = unitScale f.tag + (mw W - mw f.tag + rebias)) (hr : mw f.tag < rebias) :
    narrowRebias W f.tag rebias y = rne f.tag (fields W y).s (magUnits W y) (2 ^ unitScale W) := by
  have hml := fields_m_lt W y
  have hE := emaxField_pos f.tag
  have hp : 2 ^ mw W = 2 ^ (mw f.tag + (mw W - mw f.tag)) := by rw [Nat.add_sub_cancel' hm.le]
  rcases le_or_gt (emaxField f.tag + rebias) (fields W y).e with habove | habove
  · rw [narrowRebias_above hy habove, magUnits_normal (by omega), rne_above hscale]
    calc 2 ^ (mw W - mw f.tag + rebias + mw f.tag + emaxField f.tag - 1) ≤ 2 ^ (mw W + ((fields W y).e - 1)) :=
          Nat.pow_le_pow_right (by norm_num) (by omega)
      _ = 2 ^ mw W * 2 ^ ((fields W y).e - 1) := pow_add ..
      _ ≤ _ := Nat.mul_le_mul_right _ (Nat.le_add_right _ _)
  rcases lt_or_ge ((fields W y).e + mw f.tag) rebias with hunder | hunder
  · rw [narrowRebias_underflow hy hunder, rne_underflow (D := mw W - mw f.tag + rebias - 1) (by omega)]
    exact (magUnits_lt_two_pow W y).trans_le (Nat.pow_le_pow_right (by norm_num) (by omega))
  rw [magUnits_normal (by omega)]
  rcases le_or_gt (fields W y).e rebias with hsub | hnormal
  · obtain ⟨sh, hsh⟩ : ∃ sh, sh + (fields W y).e = mw W - mw f.tag + 1 + rebias := ⟨_, Nat.sub_add_cancel (by omega)⟩
    have hM : 2 ^ mw W + (fields W y).m < 2 ^ (mw f.tag + 1 + sh) := by
      calc 2 ^ mw W + (fields W y).m < 2 ^ (mw W + 1) := by rw [pow_succ]; omega
        _ ≤ _ := Nat.pow_le_pow_right (by norm_num) (by omega)
    rw [narrowRebias_subnormal hy hunder hsub hsh, signed15_eq f,
      rne_shifted (j := 0) (sh := sh) (by omega) (by omega) (by omega) hM (by omega), Nat.zero_mul, Nat.zero_add]
  · obtain ⟨j, hj⟩ : ∃ j, (fields W y).e = j + 1 + rebias := ⟨(fields W y).e - rebias - 1, by omega⟩
    rw [narrowRebias_normal hy hj (by omega) (by omega), signed15_eq f, hp,
      rne_normal (j := j) (by omega) (hp ▸ hml) (by omega) (by omega)]

/-- The rounded narrowing of an infinity keeps it, and a NaN goes by R146. -/
theorem narrowRebias_special {n : Nat} {W T : Tag} {rebias : Nat} {y : BitVec n} (hy : ¬ IsFinite W y) :
    narrowRebias W T rebias y = narrowExact W T y := by
  rcases not_isFinite_iff.1 hy with h | h
  · obtain ⟨he, hm⟩ := classOf_nan.1 h
    rw [narrowExact_nan h]
    simp only [narrowRebias, if_pos he, if_neg hm]
  · obtain ⟨he, hm⟩ := classOf_infinite.1 h
    rw [narrowExact_infinite h]
    simp only [narrowRebias, if_pos he, if_pos hm]

/-- R147's algorithm is the exact narrowing, in each of the formats' pairs it serves. -/
theorem narrowRebias_eq_narrowExact {n : Nat} {W : Tag} {f : Fmt} {rebias : Nat} (y : BitVec n) (hm : mw f.tag < mw W)
    (hscale : unitScale W = unitScale f.tag + (mw W - mw f.tag + rebias)) (hr : mw f.tag < rebias) :
    narrowRebias W f.tag rebias y = narrowExact W f.tag y := by
  by_cases hy : IsFinite W y
  · rw [narrowRebias_finite hy hm hscale hr, narrowExact_finite hy]
  · exact narrowRebias_special hy

/-- R149's algorithm by the fields: the exponent and the upper mantissa bits are one field, rounded by the lower sixteen bits. -/
theorem narrowSBF_eq {y : BitVec 32} (h : classOf .s y ≠ .nan) :
    narrowSBF y = BitVec.ofNat 16 ((fields .s y).s.toNat * 2 ^ 15 + ((fields .s y).e * 2 ^ 7 + (fields .s y).m >>> 16 +
      rneInc ((fields .s y).e * 2 ^ 7 + (fields .s y).m >>> 16) ((fields .s y).m % 2 ^ 16) 16)) := by
  have hy : y.toNat = (fields .s y).s.toNat * 2 ^ 31 + (fields .s y).e * 2 ^ 23 + (fields .s y).m :=
    toNat_eq_fields (n := 32) (T := .s) rfl y
  have hq : y.toNat / 2 ^ 16 = (fields .s y).s.toNat * 2 ^ 15 + ((fields .s y).e * 2 ^ 7 + (fields .s y).m >>> 16) := by
    rw [Nat.shiftRight_eq_div_pow]
    omega
  have hr : y.toNat % 2 ^ 16 = (fields .s y).m % 2 ^ 16 := by omega
  simp only [narrowSBF, if_neg h]
  rw [hr, rneInc_congr (q' := (fields .s y).e * 2 ^ 7 + (fields .s y).m >>> 16) (by omega), hq, Nat.add_assoc]

/-- R149's algorithm is the exact narrowing: bfloat16 has binary32's exponents, so a normal stays normal and a subnormal subnormal. -/
theorem narrowSBF_eq_narrowExact (y : BitVec 32) : narrowSBF y = narrowExact .s .bf y := by
  have hm : (fields .s y).m < 2 ^ 23 := fields_m_lt .s y
  by_cases hnan : classOf .s y = .nan
  · rw [narrowExact_nan hnan]
    simp only [narrowSBF, if_pos hnan]
  rw [narrowSBF_eq hnan]
  by_cases hinf : classOf .s y = .infinite
  · obtain ⟨he, hm0⟩ := classOf_infinite.1 hinf
    rw [narrowExact_infinite hinf, he, hm0]
    simp [rneInc, pack, emaxField, ew, mw]
  have hfin : IsFinite .s y := by
    by_contra h
    exact (not_isFinite_iff.1 h).elim hnan hinf
  have he : (fields .s y).e < 255 := lt_of_le_of_ne (fields_e_le .s y) (isFinite_iff.1 hfin)
  rw [narrowExact_finite hfin]
  by_cases h0 : (fields .s y).e = 0
  · have hround := rne_shifted (n := 16) (T := .bf) (s := (fields .s y).s) (M := (fields .s y).m) (c := 0) (w := unitScale .s) (sh := 16)
      (j := 0) (by decide) rfl (by omega) (hm.trans (by decide)) (by decide)
    rw [pow_zero, Nat.mul_one] at hround
    rw [magUnits_subnormal h0, hround, h0, Nat.zero_mul, Nat.zero_mul, Nat.zero_add, Nat.zero_add]
    rfl
  · have hround := rne_normal (n := 16) (T := .bf) (s := (fields .s y).s) (m := (fields .s y).m) (c := (fields .s y).e - 1)
      (w := unitScale .s) (drop := 16) (j := (fields .s y).e - 1) (by decide) hm (by simp only [unitScale, mw, bias]; omega)
      (by simp only [emaxField, ew]; omega)
    rw [Nat.sub_add_cancel (Nat.one_le_iff_ne_zero.2 h0)] at hround
    rw [magUnits_normal h0]
    exact hround.symm

/-- Settles O20, by the four narrowings. -/
theorem narrowingIsExactRounding : Obligations.NarrowingIsExactRounding := by
  unfold Obligations.NarrowingIsExactRounding
  constructor
  · intro f y
    cases f with
    | h => exact narrowRebias_eq_narrowExact (f := .h) y (by decide) (by decide) (by decide)
    | bf => exact narrowSBF_eq_narrowExact y
  · intro f y
    cases f with
    | h => exact narrowRebias_eq_narrowExact (f := .h) y (by decide) (by decide) (by decide)
    | bf => exact narrowRebias_eq_narrowExact (f := .bf) y (by decide) (by decide) (by decide)

/-! ### The order of patterns (R109) -/

/-- Settles O22: a value's order is its units' order, and a positive pattern's units are in the order of its magnitude bits. -/
theorem patternOrderIsValueOrder : Obligations.PatternOrderIsValueOrder := by
  unfold Obligations.PatternOrderIsValueOrder
  intro f x y hx hy sx sy
  have hunits : ∀ a : Pat16, sign16 a = false → signedUnits f.tag a = magUnits f.tag a := by
    intro a ha
    rw [signedUnits, sign16_eq, ha]
    rfl
  rw [extValue_lt_iff hx hy, hunits x sx, hunits y sy, Int.ofNat_lt, magUnits_lt_iff]

/-! ### The two paths (R115, R116) -/

/-- A pattern at the low end of R has its fields there. -/
theorem fields_setWidth {n : Nat} (T : Tag) (hn : n ≤ 64) (p : BitVec n) : fields T (p.setWidth 64) = fields T p := by
  simp only [fields, BitVec.getLsbD, BitVec.toNat_setWidth_of_le hn]

theorem patWidth_le (T : Tag) : patWidth T ≤ 64 := by cases T <;> decide

/-- The bits of a pattern above its mantissa are its sign and its exponent. -/
theorem toNat_div_mantissa {n : Nat} {T : Tag} (hn : n = patWidth T) (x : BitVec n) :
    x.toNat / 2 ^ mw T = (fields T x).s.toNat * 2 ^ ew T + (fields T x).e := by
  have hsum : x.toNat = 2 ^ mw T * ((fields T x).s.toNat * 2 ^ ew T + (fields T x).e) + (fields T x).m := by
    rw [toNat_eq_fields hn x, pow_add]
    ring
  rw [hsum, Nat.mul_add_div (by positivity), Nat.div_eq_of_lt (fields_m_lt T x), Nat.add_zero]

/-- An operation R115 covers dispatches one portable result on both paths: the result is computed without CAP. -/
theorem exists_dispatched_both_paths {i : Instr} {T : Tag} (h : dispatchTag i = some T) (s : State) (c c' : BitVec 1) :
    ∃ n, n = patWidth T ∧ ∃ p : BitVec n, Dispatched T p i { s with cap := c } ∧ Dispatched T p i { s with cap := c' } := by
  cases i with
  | fromf32 f | fromf64 f | fromi64 f | fromu64 f | add f | sub f | mul f | div f | rem f | neg f
  | min f | max f | minimum f | maximum f =>
    cases h
    exact ⟨16, (patWidth_tag f).symm, _, dispatched_of_exec (mw_pos _) rfl, dispatched_of_exec (mw_pos _) rfl⟩
  | tof32 f =>
    cases h
    exact ⟨32, rfl, _, dispatched_of_exec (mw_pos _) rfl, dispatched_of_exec (mw_pos _) rfl⟩
  | tof64 f =>
    cases h
    refine ⟨64, rfl, widenToD f (opA16 s), dispatched_of_exec (mw_pos _) ?_, dispatched_of_exec (mw_pos _) ?_⟩ <;>
      (rw [BitVec.setWidth_eq]; rfl)
  | frombits _ | tobits _ | isnan _ | isinf _ | isfinite _ | issignneg _ | classify _ | eq _ | ne _ | lt _ | le _
  | gt _ | ge _ | totalcmp _ | fmtbits _ | fmtdec _ => cases h

/-- An operation R115 does not cover answers the same on both paths. -/
theorem sameResponse_of_not_dispatched {i : Instr} (h : dispatchTag i = none) (s : State) (c c' : BitVec 1) :
    SameResponse (exec i { s with cap := c }) (exec i { s with cap := c' }) := by
  cases i with
  | frombits _ | tobits _ | isnan _ | isinf _ | isfinite _ | issignneg _ | classify _ | eq _ | ne _ | lt _ | le _
  | gt _ | ge _ | totalcmp _ | fmtbits _ => exact sameResponse_answer rfl
  | fmtdec f =>
    simp only [exec, execFmtdec]
    split
    · exact sameResponse_answerStr rfl
    · exact sameResponse_takeIllegalOp
  | fromf32 _ | fromf64 _ | fromi64 _ | fromu64 _ | add _ | sub _ | mul _ | div _ | rem _ | neg _
  | min _ | max _ | minimum _ | maximum _ | tof32 _ | tof64 _ => cases h

/-- Two values of R hold NaNs of one format that differ in the mantissa field only. -/
def SameButNaNPayload (T : Tag) (r r' : Word64) : Prop :=
  classOf T r = .nan ∧ classOf T r' = .nan ∧ (fields T r).s = (fields T r').s ∧
    r.toNat < 2 ^ (1 + ew T + mw T) ∧ r'.toNat < 2 ^ (1 + ew T + mw T) ∧ r.toNat / 2 ^ mw T = r'.toNat / 2 ^ mw T

/-- A NaN and the same NaN with another non-zero mantissa, each at the low end of R. -/
theorem sameButNaNPayload_drawn {n : Nat} {T : Tag} (hn : n = patWidth T) {p : BitVec n} (hp : classOf T p = .nan) {m : Nat}
    (hm0 : 0 < m) (hm : m < 2 ^ mw T) :
    SameButNaNPayload T (p.setWidth 64) ((pack T (fields T p).s (emaxField T) m : BitVec n).setWidth 64) := by
  have hn64 : n ≤ 64 := hn ▸ patWidth_le T
  have hdrawn := fields_pack hn (s := (fields T p).s) (emaxField_lt T) hm
  have hwidth : ∀ q : BitVec n, (q.setWidth 64).toNat < 2 ^ (1 + ew T + mw T) := by
    intro q
    rw [BitVec.toNat_setWidth_of_le hn64]
    exact lt_of_lt_of_eq q.isLt (congrArg (2 ^ ·) hn)
  obtain ⟨he, hm'⟩ := classOf_nan.1 hp
  refine ⟨?_, ?_, ?_, hwidth p, hwidth _, ?_⟩
  · rw [classOf_nan, fields_setWidth T hn64]
    exact ⟨he, hm'⟩
  · rw [classOf_nan, fields_setWidth T hn64, hdrawn]
    exact ⟨rfl, hm0.ne'⟩
  · rw [fields_setWidth T hn64, fields_setWidth T hn64, hdrawn]
  · rw [BitVec.toNat_setWidth_of_le hn64, BitVec.toNat_setWidth_of_le hn64, toNat_div_mantissa hn, toNat_div_mantissa hn, hdrawn, he]

/-- Settles O18: an operation R115 covers dispatches one portable result, which only a NaN on the hardware path changes, in its mantissa
field; every other operation answers the same on both paths. -/
theorem pathsAgreeButForNaNPayload : Obligations.PathsAgreeButForNaNPayload := by
  unfold Obligations.PathsAgreeButForNaNPayload
  intro i s
  cases hT : dispatchTag i with
  | none =>
    obtain ⟨p, h, resp, hp, hh, hpo, hho⟩ := sameResponse_of_not_dispatched hT s 0#1 1#1
    exact ⟨p, h, resp, resp, hp, hh, hpo, hho, rfl, rfl, .inl rfl⟩
  | some T =>
    obtain ⟨n, hn, P, hportable, hhardware⟩ := exists_dispatched_both_paths hT s 0#1 1#1
    rw [Dispatched, if_neg (by simp)] at hportable
    by_cases hnan : classOf T P = .nan
    · rw [Dispatched, if_pos ⟨rfl, hnan⟩] at hhardware
      obtain ⟨m, hm0, hm, hexec⟩ := hhardware
      exact ⟨_, _, _, _, hportable, hexec, rfl, rfl, rfl, rfl, .inr ⟨T, rfl, sameButNaNPayload_drawn hn hnan hm0 hm⟩⟩
    · rw [Dispatched, if_neg (fun h => hnan h.2)] at hhardware
      exact ⟨_, _, _, _, hportable, hhardware, rfl, rfl, rfl, rfl, .inl rfl⟩

end Sys2Proof.Machine
end

section
/-! PROOFS. The statements about the codec (41_codec.md). A widened pattern is told by its class (`isWidening_of`), the exact narrowing
undoes every widening (`narrowExact_of_isWidening`), and what R115 lets a path answer agrees with the portable result in all but a NaN's
payload (`Dispatched.agrees`); the round trip is these three. -/

namespace Sys2Proof.Machine

/-! ### Raw bits (R155, R156) -/

/-- A[15:0] in R, as a number. -/
theorem opA16_setWidth (s : State) : (opA16 s).setWidth 64 = BitVec.ofNat 64 (s.port.a.toNat % 2 ^ 16) := by
  apply BitVec.eq_of_toNat_eq
  rw [BitVec.toNat_setWidth, opA16, BitVec.toNat_setWidth, BitVec.toNat_ofNat]

/-- Settles O24: both operations answer A[15:0] without R115's dispatch. -/
theorem rawBitsUnchanged : Obligations.RawBitsUnchanged := by
  unfold Obligations.RawBitsUnchanged
  refine ⟨⟨rfl, rfl⟩, ⟨rfl, rfl⟩, fun f s => ?_⟩
  rw [← opA16_setWidth]
  exact ⟨rfl, rfl⟩

/-! ### Widening (R140, R159, R160) -/

/-- A finite pattern of another format with the same sign and the same magnitude, counted in the finer units, has the same value. -/
theorem value_eq_of_units {n m : Nat} {T W : Tag} {x : BitVec n} {y : BitVec m} (hT : unitScale T ≤ unitScale W) (hx : IsFinite T x)
    (hy : IsFinite W y) (hs : (fields W y).s = (fields T x).s)
    (hm : magUnits W y = magUnits T x * 2 ^ (unitScale W - unitScale T)) : value W y = value T x := by
  rw [value_eq_units hy, value_eq_units hx, hs, hm, ← unitValue_scaled hT]
  push_cast
  ring

/-- By R141's classes: for an infinity or a NaN `x` the sign with the left-aligned mantissa, for a finite `x` its sign and magnitude. -/
theorem isWidening_of {n : Nat} {T W : Tag} {x : Pat16} {y : BitVec n} (hT : unitScale T ≤ unitScale W)
    (hspecial : (fields T x).e = emaxField T → y = pack W (fields T x).s (emaxField W) ((fields T x).m * 2 ^ (mw W - mw T)))
    (hfinite : IsFinite T x → IsFinite W y ∧ (fields W y).s = (fields T x).s ∧
      magUnits W y = magUnits T x * 2 ^ (unitScale W - unitScale T)) : IsWidening T W x y := by
  have hvalue : IsFinite T x → IsFinite W y ∧ (fields W y).s = (fields T x).s ∧ value W y = value T x := by
    intro hx
    obtain ⟨hy, hs, hm⟩ := hfinite hx
    exact ⟨hy, hs, value_eq_of_units hT hx hy hs hm⟩
  unfold IsWidening
  split
  next hc => exact hspecial (classOf_nan.1 hc).1
  next hc =>
    obtain ⟨he, hm⟩ := classOf_infinite.1 hc
    rw [hspecial he, hm, Nat.zero_mul]
  next hc => exact hvalue (.inl hc)
  next hc => exact hvalue (.inr (.inl hc))
  next hc => exact hvalue (.inr (.inr hc))

/-- Settles O21, by the two widenings' classes. -/
theorem wideningIsExact : Obligations.WideningIsExact := by
  unfold Obligations.WideningIsExact
  exact fun f x => ⟨isWidening_of (unitScale_le f).1 widenToS_special widenToS_finite,
    isWidening_of (unitScale_le f).2 widenToD_special widenToD_finite⟩

/-- TOF64 dispatches the widening, which fills R. -/
theorem dispatched_tof64 (f : Fmt) (s : State) : Dispatched .d (widenToD f (opA16 s)) (.tof64 f) s :=
  dispatched_of_exec (mw_pos .d) (by rw [BitVec.setWidth_eq]; rfl)

/-- Settles O26: the operations dispatch the widenings, which are exact (`wideningIsExact`). -/
theorem toFloatWidensExactly : Obligations.ToFloatWidensExactly := by
  unfold Obligations.ToFloatWidensExactly
  refine ⟨⟨rfl, rfl⟩, ⟨rfl, rfl⟩, fun f s => ?_⟩
  obtain ⟨hS, hD⟩ := wideningIsExact f (opA16 s)
  exact ⟨⟨_, hS, dispatched_of_exec (mw_pos .s) rfl⟩, ⟨_, hD, dispatched_tof64 f s⟩⟩

/-! ### Narrowing (R113, R157, R158) -/

/-- Settles O25: the operations dispatch the narrowings, which are exact (`narrowingIsExactRounding`). -/
theorem fromFloatNarrowsOnce : Obligations.FromFloatNarrowsOnce := by
  unfold Obligations.FromFloatNarrowsOnce
  obtain ⟨hS, hD⟩ := narrowingIsExactRounding
  refine ⟨⟨rfl, rfl⟩, ⟨rfl, rfl⟩, fun f s => ?_⟩
  rw [← hS, ← hD]
  exact ⟨dispatched_of_exec (mw_pos f.tag) rfl, dispatched_of_exec (mw_pos f.tag) rfl⟩

/-! ### Integers (R161, R162) -/

theorem fromInt_zero (f : Fmt) : fromInt f 0 = 0#16 := by cases f <;> rfl

/-- An integer other than 0 is rounded once, from its exact value. -/
theorem nearestEven_fromInt (f : Fmt) {n : Int} (hn : n ≠ 0) :
    NearestEven f.tag (decide (n < 0)) |(n : ℚ)| (fromInt f n) := by
  have habs : |(n : ℚ)| = (n.natAbs : ℚ) / (1 : Nat) := by rw [Nat.cast_natAbs, Nat.cast_one, div_one, Int.cast_abs]
  rw [fromInt, if_neg hn, habs]
  exact nearestEven_rne (patWidth_tag f).symm _ _ one_pos

/-- Settles O27: both operations dispatch `fromInt` of the port's signed or unsigned integer. -/
theorem fromIntegerRoundsOnce : Obligations.FromIntegerRoundsOnce := by
  unfold Obligations.FromIntegerRoundsOnce
  refine ⟨⟨rfl, rfl⟩, ⟨rfl, rfl⟩, fun f s => ⟨⟨fromInt f (opI64 s), ?_, dispatched_of_exec (mw_pos f.tag) rfl⟩,
    ⟨fromInt f (opU64 s), ?_, dispatched_of_exec (mw_pos f.tag) rfl⟩⟩⟩
  · split
    next h => rw [opI64, h, fromInt_zero]
    next h => exact nearestEven_fromInt f h
  · split
    next h => rw [opU64, h, Nat.cast_zero, fromInt_zero]
    next h =>
      have hround := nearestEven_fromInt f (n := opU64 s) (Nat.cast_ne_zero.2 h)
      rwa [decide_eq_false (by omega), Int.cast_natCast, Nat.abs_cast] at hround

/-! ### Narrowing undoes widening (R151) -/

section Narrowing

variable {n : Nat} {W : Tag} {f : Fmt} {x : Pat16} {y : BitVec n}

/-- A narrowed NaN keeps its sign and its leading mantissa bits, or is the quiet NaN of its sign when none is left (R146). -/
theorem fields_nanNarrow (hm : mw f.tag ≤ mw W) (y : BitVec n) :
    fields f.tag (nanNarrow W f.tag y) = ⟨(fields W y).s, emaxField f.tag,
      if (fields W y).m >>> (mw W - mw f.tag) = 0 then quietBit f.tag else (fields W y).m >>> (mw W - mw f.tag)⟩ := by
  refine fields_pack (patWidth_tag f).symm (emaxField_lt _) ?_
  split
  · exact Nat.pow_lt_pow_right (by norm_num) (Nat.sub_lt (mw_pos _) one_pos)
  · rw [Nat.shiftRight_eq_div_pow, Nat.div_lt_iff_lt_mul (by positivity), ← pow_add, Nat.add_sub_cancel' hm]
    exact fields_m_lt W y

/-- Narrowing keeps a NaN a NaN of the same sign. -/
theorem narrowExact_keeps_nan (hm : mw f.tag ≤ mw W) (h : classOf W y = .nan) :
    classOf f.tag (narrowExact W f.tag y) = .nan ∧ (fields f.tag (narrowExact W f.tag y)).s = (fields W y).s := by
  have hq : quietBit f.tag ≠ 0 := by unfold quietBit; positivity
  rw [narrowExact_nan h, classOf_nan, fields_nanNarrow hm]
  refine ⟨⟨rfl, ?_⟩, rfl⟩
  split <;> assumption

/-- A widened NaN has the NaN's sign and its mantissa left-aligned. -/
theorem fields_of_isWidening_nan (hn : n = patWidth W) (hm : mw f.tag ≤ mw W) (h : IsWidening f.tag W x y)
    (hx : classOf f.tag x = .nan) :
    fields W y = ⟨(fields f.tag x).s, emaxField W, (fields f.tag x).m * 2 ^ (mw W - mw f.tag)⟩ := by
  simp only [IsWidening, hx] at h
  rw [h]
  exact fields_pack hn (emaxField_lt W) (aligned_mantissa hm x).1

/-- A widened infinity is the infinity of its sign. -/
theorem fields_of_isWidening_infinite (hn : n = patWidth W) (h : IsWidening f.tag W x y) (hx : classOf f.tag x = .infinite) :
    fields W y = ⟨(fields f.tag x).s, emaxField W, 0⟩ := by
  simp only [IsWidening, hx] at h
  rw [h]
  exact fields_pack hn (emaxField_lt W) (by positivity)

/-- A widened finite pattern keeps its sign, and its magnitude counted in the wide format's units. -/
theorem units_of_isWidening (hT : unitScale f.tag ≤ unitScale W) (h : IsWidening f.tag W x y) (hx : IsFinite f.tag x) :
    IsFinite W y ∧ (fields W y).s = (fields f.tag x).s ∧
      magUnits W y = magUnits f.tag x * 2 ^ (unitScale W - unitScale f.tag) := by
  obtain ⟨hy, hs, hv⟩ : IsFinite W y ∧ (fields W y).s = (fields f.tag x).s ∧ value W y = value f.tag x := by
    rcases hx with hx | hx | hx <;> simpa only [IsWidening, hx] using h
  refine ⟨hy, hs, ?_⟩
  have habs := congrArg abs hv
  rw [abs_value_eq_units hy, abs_value_eq_units hx, ← unitValue_scaled hT, ← mul_assoc,
    mul_left_inj' (unitValue_pos W).ne'] at habs
  exact_mod_cast habs

/-- Widening makes a NaN of a NaN only. -/
theorem classOf_nan_of_isWidening (hn : n = patWidth W) (hm : mw f.tag ≤ mw W) (hT : unitScale f.tag ≤ unitScale W)
    (h : IsWidening f.tag W x y) : classOf W y = .nan ↔ classOf f.tag x = .nan := by
  by_cases hx : IsFinite f.tag x
  · have hy := (units_of_isWidening hT h hx).1
    exact ⟨fun hc => absurd hy (not_isFinite_iff.2 (.inl hc)), fun hc => absurd hx (not_isFinite_iff.2 (.inl hc))⟩
  rcases not_isFinite_iff.1 hx with hc | hc
  · obtain ⟨-, hm0⟩ := classOf_nan.1 hc
    rw [classOf_nan, fields_of_isWidening_nan hn hm h hc]
    exact ⟨fun _ => hc, fun _ => ⟨rfl, mt (aligned_mantissa hm x).2.1 hm0⟩⟩
  · rw [classOf_nan, fields_of_isWidening_infinite hn h hc, hc]
    simp

/-- The exact narrowing of a widening is the pattern itself, NaN payloads included. -/
theorem narrowExact_of_isWidening (hn : n = patWidth W) (hm : mw f.tag ≤ mw W) (hT : unitScale f.tag ≤ unitScale W)
    (h : IsWidening f.tag W x y) : narrowExact W f.tag y = x := by
  by_cases hx : IsFinite f.tag x
  · obtain ⟨hy, hs, hmag⟩ := units_of_isWidening hT h hx
    rw [narrowExact_finite hy, hs, hmag]
    refine rne_exact (patWidth_tag f).symm hx (by positivity) ?_
    rw [mul_assoc, ← pow_add, Nat.sub_add_cancel hT, Nat.mul_comm]
  refine eq_of_fields (patWidth_tag f).symm ?_
  rcases not_isFinite_iff.1 hx with hc | hc
  · obtain ⟨he, hm0⟩ := classOf_nan.1 hc
    have hshift : ((fields f.tag x).m * 2 ^ (mw W - mw f.tag)) >>> (mw W - mw f.tag) = (fields f.tag x).m := by
      rw [Nat.shiftRight_eq_div_pow, Nat.mul_div_cancel _ (by positivity)]
    rw [narrowExact_nan ((classOf_nan_of_isWidening hn hm hT h).2 hc), fields_nanNarrow hm, fields_of_isWidening_nan hn hm h hc]
    simp only [hshift, if_neg hm0, ← he]
  · obtain ⟨he, hm0⟩ := classOf_infinite.1 hc
    have hy := fields_of_isWidening_infinite hn h hc
    have hinf : classOf W y = .infinite := by rw [classOf_infinite, hy]; exact ⟨rfl, rfl⟩
    rw [narrowExact_infinite hinf, fields_pack (patWidth_tag f).symm (emaxField_lt _) (by positivity), hy, ← he, ← hm0]

end Narrowing

/-! ### The round trip through the unit (R115, R151) -/

/-- What R115 lets a path with capability `cap` answer for the portable result `P`: `P` itself, except that on the hardware-intrinsic path
a NaN need only stay a NaN of the same sign. -/
def AgreesButForPayload {n : Nat} (T : Tag) (cap : BitVec 1) (P Q : BitVec n) : Prop :=
  (cap = 0#1 ∨ classOf T P ≠ .nan → Q = P) ∧ (classOf T P = .nan → classOf T Q = .nan ∧ (fields T Q).s = (fields T P).s)

/-- A dispatched result is answered at the low end of R with ERR = 0, and agrees with the portable one; beside the response only the draw
counter may move. -/
theorem Dispatched.agrees {n : Nat} {T : Tag} (hn : n = patWidth T) {P : BitVec n} {i : Instr} {s : State} (h : Dispatched T P i s) :
    ∃ Q k, exec i s = .next { s.answered (Q.setWidth 64) [] with draws := k } ∧ AgreesButForPayload T s.cap P Q := by
  unfold Dispatched at h
  split at h
  next hc =>
    obtain ⟨hcap, hnan⟩ := hc
    obtain ⟨m, hm0, hm, hexec⟩ := h
    have hfields := fields_pack hn (s := (fields T P).s) (emaxField_lt T) hm
    refine ⟨_, _, hexec, fun hor => ?_, fun _ => ⟨?_, by rw [hfields]⟩⟩
    · simp [hcap, hnan] at hor
    · rw [classOf_nan, hfields]
      exact ⟨rfl, hm0.ne'⟩
  next => exact ⟨P, s.draws, h, fun _ => rfl, fun hnan => ⟨hnan, rfl⟩⟩

theorem mw_le (f : Fmt) : mw f.tag ≤ mw .s ∧ mw f.tag ≤ mw .d := by cases f <;> decide

/-- `widen` answers the widening of A[15:0] to the `n`-bit format W, and `narrow` the exact narrowing of its own operand, each subject to
R115; W has room for the 16-bit format's mantissa and units. -/
structure ConversionPair (f : Fmt) (n : Nat) (W : Tag) (widen narrow : Instr) : Prop where
  width : n = patWidth W
  mantissa : mw f.tag ≤ mw W
  units : unitScale f.tag ≤ unitScale W
  widens : ∀ s, ∃ y : BitVec n, IsWidening f.tag W (s.port.a.setWidth 16) y ∧ Dispatched W y widen s
  narrows : ∀ s, Dispatched f.tag (narrowExact W f.tag (s.port.a.setWidth n)) narrow s

theorem conversionPair_f32 (f : Fmt) : ConversionPair f 32 .s (.tof32 f) (.fromf32 f) := by
  obtain ⟨-, -, hwiden⟩ := toFloatWidensExactly
  obtain ⟨-, -, hnarrow⟩ := fromFloatNarrowsOnce
  exact ⟨rfl, (mw_le f).1, (unitScale_le f).1, fun s => (hwiden f s).1, fun s => (hnarrow f s).1⟩

theorem conversionPair_f64 (f : Fmt) : ConversionPair f 64 .d (.tof64 f) (.fromf64 f) := by
  obtain ⟨-, -, hwiden⟩ := toFloatWidensExactly
  obtain ⟨-, -, hnarrow⟩ := fromFloatNarrowsOnce
  refine ⟨rfl, (mw_le f).2, (unitScale_le f).2, fun s => (hwiden f s).2, fun s => ?_⟩
  rw [BitVec.setWidth_eq]
  exact (hnarrow f s).2

/-- A pattern passed through a 64-bit port comes back. -/
theorem setWidth_setWidth_64 {n : Nat} (hn : n ≤ 64) (p : BitVec n) : (p.setWidth 64).setWidth n = p := by
  rw [BitVec.setWidth_setWidth_of_le _ hn, BitVec.setWidth_eq]

/-- The portable result of narrowing what the widening's path answered: the pattern itself, or on the hardware-intrinsic path for a NaN
some NaN of its sign. -/
theorem ConversionPair.narrowExact_agrees {f : Fmt} {n : Nat} {W : Tag} {widen narrow : Instr} (h : ConversionPair f n W widen narrow)
    {cap : BitVec 1} {x : Pat16} {y Q : BitVec n} (hy : IsWidening f.tag W x y) (hQ : AgreesButForPayload W cap y Q) :
    AgreesButForPayload f.tag cap x (narrowExact W f.tag Q) := by
  obtain ⟨hsame, hnan⟩ := hQ
  have hclass := classOf_nan_of_isWidening h.width h.mantissa h.units hy
  refine ⟨fun hor => ?_, fun hx => ?_⟩
  · rw [hsame (hor.imp_right (mt hclass.1)), narrowExact_of_isWidening h.width h.mantissa h.units hy]
  · obtain ⟨hQnan, hQs⟩ := hnan (hclass.2 hx)
    obtain ⟨hNnan, hNs⟩ := narrowExact_keeps_nan h.mantissa hQnan
    exact ⟨hNnan, by rw [hNs, hQs, fields_of_isWidening_nan h.width h.mantissa hy hx]⟩

/-- Two conversions in turn, each within R115, are within R115. -/
theorem AgreesButForPayload.trans {n : Nat} {T : Tag} {cap : BitVec 1} {P Q R : BitVec n} (hPQ : AgreesButForPayload T cap P Q)
    (hQR : AgreesButForPayload T cap Q R) : AgreesButForPayload T cap P R := by
  obtain ⟨hsame, hnan⟩ := hPQ
  obtain ⟨hsame', hnan'⟩ := hQR
  refine ⟨fun hor => ?_, fun hP => ?_⟩
  · obtain rfl := hsame hor
    exact hsame' hor
  · obtain ⟨hQ, hs⟩ := hnan hP
    obtain ⟨hR, hs'⟩ := hnan' hQ
    exact ⟨hR, hs'.trans hs⟩

/-- Settles O23: the first response agrees with the widening, the second with the narrowing of the first, and narrowing undoes widening. -/
theorem roundTripBitForBit : Obligations.RoundTripBitForBit := by
  unfold Obligations.RoundTripBitForBit
  intro f s widen narrow hmem
  obtain ⟨n, W, hpair⟩ : ∃ n W, ConversionPair f n W widen narrow := by
    simp only [List.mem_cons, Prod.mk.injEq, List.not_mem_nil, or_false] at hmem
    rcases hmem with ⟨rfl, rfl⟩ | ⟨rfl, rfl⟩
    · exact ⟨32, .s, conversionPair_f32 f⟩
    · exact ⟨64, .d, conversionPair_f64 f⟩
  obtain ⟨y, hy, hwiden⟩ := hpair.widens s
  obtain ⟨Q, k, hexec, hQ⟩ := hwiden.agrees hpair.width
  have hnarrow := hpair.narrows { s.answered (Q.setWidth 64) [] with draws := k, port := { s.port with a := Q.setWidth 64 } }
  simp only [setWidth_setWidth_64 (hpair.width.trans_le (patWidth_le W))] at hnarrow
  obtain ⟨Z, k', hexec', hZ⟩ := hnarrow.agrees (patWidth_tag f).symm
  obtain ⟨hsame, hnan⟩ := (hpair.narrowExact_agrees hy hQ).trans hZ
  refine ⟨_, _, _, Z.setWidth 64, hexec, rfl, hexec', rfl, toNat_setWidth_lt (by decide) Z, fun hor => ?_, fun hx => ?_⟩
  · rw [hsame (hor.imp_right (mt (isNaN16_iff f _).1)), BitVec.toNat_setWidth_of_le (by decide), BitVec.toNat_setWidth]
  · obtain ⟨hZnan, hZs⟩ := hnan ((isNaN16_iff f _).2 hx)
    rw [setWidth_setWidth_64 (by decide), ← isNaN16_iff, ← sign16_eq f, ← sign16_eq f]
    exact ⟨hZnan, hZs⟩

end Sys2Proof.Machine
end

section
/-! PROOFS. The statements about the arithmetic (42_arith.md). A binary operation is its NaN operands and the demotion of its binary32
result (`binary_dispatched`); a binary32 operation on widened operands is told by the 16-bit operands' bits and values, because widening
keeps both; a remainder of two 16-bit patterns is itself a 16-bit pattern (`exists_remainder`), so nothing rounds it. -/

namespace Sys2Proof.Machine

/-! ### Demotion (R187, R188) -/

/-- The 16-bit result of a binary32 operation (R188): the canonical NaN for INVALID, else the binary32 result narrowed. -/
def demote (f : Fmt) : Option (BitVec 32) → Pat16
  | none => canonicalNaN f
  | some z => narrowFromS f z

theorem demote_none (f : Fmt) : demote f none = canonicalNaN f := rfl

/-- Demotion undoes promotion. -/
theorem demote_widenToS (f : Fmt) (x : Pat16) : demote f (some (widenToS f x)) = x := by
  rw [demote, narrowingIsExactRounding.1]
  exact narrowExact_of_isWidening rfl (mw_le f).1 (unitScale_le f).1 (wideningIsExact f x).1

theorem demote_infinite (f : Fmt) (s : Bool) : demote f (some (pack .s s (emaxField .s) 0)) = infPattern f s := by
  cases f <;> cases s <;> rfl

theorem demote_zero (f : Fmt) (s : Bool) : demote f (some (pack .s s 0 0)) = zeroPattern s := by
  cases f <;> cases s <;> rfl

/-- A result rounded to binary32 is rounded once before it is narrowed (R113). -/
theorem demoted_rne (f : Fmt) (s : Bool) (num : Nat) {den : Nat} (hd : 0 < den) :
    Demoted f s (num / den) (demote f (some (rne .s s num den))) :=
  ⟨_, nearestEven_rne rfl s num hd, narrowingIsExactRounding.1 f _⟩

theorem setQuiet_eq (f : Fmt) (a : Pat16) : setQuiet f.tag a = a ||| quietMask f := by cases f <;> rfl

theorem qnan_eq (f : Fmt) : (qnan f.tag : Pat16) = canonicalNaN f := by cases f <;> rfl

section Binop

variable {f : Fmt} {op : BitVec 32 → BitVec 32 → Option (BitVec 32)} {a b : Pat16}

theorem binop_nan_left (ha : IsNaN16 f a) : binop f op a b = a ||| quietMask f := by
  rw [binop, if_pos ((isNaN16_iff f a).2 ha), setQuiet_eq]

theorem binop_nan_right (ha : ¬ IsNaN16 f a) (hb : IsNaN16 f b) : binop f op a b = b ||| quietMask f := by
  rw [binop, if_neg (mt (isNaN16_iff f a).1 ha), if_pos ((isNaN16_iff f b).2 hb), setQuiet_eq]

theorem binop_numbers (ha : ¬ IsNaN16 f a) (hb : ¬ IsNaN16 f b) :
    binop f op a b = demote f (op (widenToS f a) (widenToS f b)) := by
  rw [binop, if_neg (mt (isNaN16_iff f a).1 ha), if_neg (mt (isNaN16_iff f b).1 hb)]
  cases op (widenToS f a) (widenToS f b) with
  | none => exact qnan_eq f
  | some z => rfl

/-- The NaN policy of R187 holds of every binary operation whose result for numbers is given. -/
theorem nanFirst_binop {Result : Pat16 → Prop}
    (h : ¬ IsNaN16 f a → ¬ IsNaN16 f b → Result (demote f (op (widenToS f a) (widenToS f b)))) :
    nanFirst f a b (binop f op a b) (Result (binop f op a b)) := by
  unfold nanFirst
  split
  next ha => exact binop_nan_left ha
  next ha =>
    split
    next hb => exact binop_nan_right ha hb
    next hb =>
      rw [binop_numbers ha hb]
      exact h ha hb

end Binop

/-- An instruction that answers a binary operation, whose result for numbers is given, meets R187 and R115. -/
theorem binary_dispatched {f : Fmt} {op : BitVec 32 → BitVec 32 → Option (BitVec 32)} {i : Instr} {s : State} {Result : Pat16 → Prop}
    (hexec : exec i s = answerV16 f (binop f op (opA16 s) (opB16 s)) s)
    (h : ¬ IsNaN16 f (opA16 s) → ¬ IsNaN16 f (opB16 s) →
      Result (demote f (op (widenToS f (opA16 s)) (widenToS f (opB16 s))))) :
    ∃ P, nanFirst f (opA16 s) (opB16 s) P (Result P) ∧ Dispatched f.tag P i s :=
  ⟨_, nanFirst_binop h, dispatched_of_exec (mw_pos _) hexec⟩

/-! ### Promoted operands (R180) -/

theorem widenToS_infinite_iff (f : Fmt) (x : Pat16) : classOf .s (widenToS f x) = .infinite ↔ IsInf16 f x := by
  rw [classOf_widenToS_infinite, isInf16_iff]

theorem widenToS_zero_iff (f : Fmt) (x : Pat16) : classOf .s (widenToS f x) = .zero ↔ IsZero16 x := by
  rw [classOf_widenToS_zero, isZero16_iff]

theorem widenToS_sign (f : Fmt) (x : Pat16) : (fields .s (widenToS f x)).s = sign16 x := by
  rw [sign_widenToS, sign16_eq]

theorem magUnits_widenToS_eq_zero {f : Fmt} {x : Pat16} : magUnits .s (widenToS f x) = 0 ↔ IsZero16 x := by
  rw [← classOf_zero_iff_units, widenToS_zero_iff]

theorem sUnit_pos : 0 < sUnit := by unfold sUnit; positivity

/-- Binary32's unit is one `sUnit`-th (R181). -/
theorem mul_unitValue_s (q : ℚ) : q * unitValue .s = q / sUnit := by
  have hunit : (sUnit : ℚ) * unitValue .s = 1 := by
    rw [sUnit]
    exact_mod_cast two_pow_unitScale_mul .s
  rw [eq_div_iff (Nat.cast_ne_zero.2 sUnit_pos.ne'), mul_assoc, mul_comm (unitValue .s), hunit, mul_one]

section Promoted

variable {f : Fmt} {x : Pat16} (hx : IsFinite f.tag x)
include hx

theorem value_eq_promoted : value f.tag x = (signedUnits .s (widenToS f x) : ℚ) / sUnit := by
  rw [← value_widenToS hx, value_eq_signedUnits (widenToS_finite hx).1, mul_unitValue_s]

theorem abs_value_eq_promoted : |value f.tag x| = (magUnits .s (widenToS f x) : ℚ) / sUnit := by
  rw [← value_widenToS hx, abs_value_eq_units (widenToS_finite hx).1, mul_unitValue_s]

end Promoted

/-! ### Inverting a sign (R183, R195) -/

theorem sign16_flipSign (x : Pat16) : sign16 (x ^^^ 0x8000#16) = !sign16 x := by
  rw [← sign16_eq .h, ← sign16_eq .h, fields_flipSign16]

theorem magBits_flipSign (x : Pat16) : magBits (x ^^^ 0x8000#16) = magBits x := by
  rw [← magBits_eq .h, ← magBits_eq .h, fields_flipSign16]

theorem isNaN16_flipSign (f : Fmt) (x : Pat16) : IsNaN16 f (x ^^^ 0x8000#16) ↔ IsNaN16 f x := by
  rw [IsNaN16, magBits_flipSign]

/-- A zero is one of the two zero patterns. -/
theorem isZero16_eq_zeroPattern {x : Pat16} (hx : IsZero16 x) : x = zeroPattern (sign16 x) := by
  have h := toNat_eq_sign_mag x
  rw [hx] at h
  apply BitVec.eq_of_toNat_eq
  rw [h, zeroPattern]
  cases sign16 x <;> rfl

/-! ### Sums (R182, R183) -/

section SignedUnits

variable (v : ℤ)

theorem div_sUnit_eq_zero : (v : ℚ) / sUnit = 0 ↔ v = 0 := by
  rw [div_eq_zero_iff, Int.cast_eq_zero, or_iff_left (Nat.cast_ne_zero.2 sUnit_pos.ne')]

theorem div_sUnit_neg : (v : ℚ) / sUnit < 0 ↔ v < 0 := by
  rw [div_lt_iff₀ (Nat.cast_pos.2 sUnit_pos), zero_mul, Int.cast_lt_zero]

theorem abs_div_sUnit : |(v : ℚ) / sUnit| = (v.natAbs : ℚ) / sUnit := by
  rw [abs_div, Nat.abs_cast, Nat.cast_natAbs, Int.cast_abs]

end SignedUnits

/-- The demoted sum of two numbers, of which either may be infinite. -/
theorem sumResult_f32Add {f : Fmt} {a b : Pat16} (ha : ¬ IsNaN16 f a) (hb : ¬ IsNaN16 f b) :
    SumResult f a b (demote f (f32Add (widenToS f a) (widenToS f b))) := by
  simp only [SumResult, f32Add, widenToS_infinite_iff, widenToS_zero_iff, widenToS_sign]
  by_cases hia : IsInf16 f a
  · simp only [if_pos hia]
    split_ifs
    · exact demote_widenToS f a
    · exact demote_none f
    · exact demote_widenToS f a
  by_cases hib : IsInf16 f b
  · simp only [if_neg hia, if_pos hib]
    exact demote_widenToS f b
  simp only [if_neg hia, if_neg hib, value_eq_promoted (isFinite_of_not ha hia),
    value_eq_promoted (isFinite_of_not hb hib), ← add_div, ← Int.cast_add, div_sUnit_eq_zero, div_sUnit_neg, abs_div_sUnit]
  split_ifs with hv hz
  · rw [demote_zero, ← isZero16_eq_zeroPattern hz.1]
  · exact demote_zero f false
  · exact demoted_rne f _ _ sUnit_pos

/-! ### Products and quotients (R184, R185) -/

/-- The demoted product of two numbers, of which either may be infinite. -/
theorem productResult_f32Mul {f : Fmt} {a b : Pat16} (ha : ¬ IsNaN16 f a) (hb : ¬ IsNaN16 f b) :
    ProductResult f a b (demote f (f32Mul (widenToS f a) (widenToS f b))) := by
  simp only [ProductResult, f32Mul, widenToS_infinite_iff, widenToS_zero_iff, widenToS_sign]
  split_ifs with hinvalid hinf
  · exact demote_none f
  · exact demote_infinite f _
  · obtain ⟨hia, hib⟩ := not_or.1 hinf
    have hproduct : |value f.tag a * value f.tag b| =
        (magUnits .s (widenToS f a) * magUnits .s (widenToS f b) : Nat) / (sUnit * sUnit : Nat) := by
      rw [abs_mul, abs_value_eq_promoted (isFinite_of_not ha hia), abs_value_eq_promoted (isFinite_of_not hb hib)]
      push_cast
      exact div_mul_div_comm ..
    rw [hproduct]
    exact demoted_rne f _ _ (Nat.mul_pos sUnit_pos sUnit_pos)

/-- The demoted quotient of two numbers, of which either may be infinite. -/
theorem quotientResult_f32Div {f : Fmt} {a b : Pat16} (ha : ¬ IsNaN16 f a) (hb : ¬ IsNaN16 f b) :
    QuotientResult f a b (demote f (f32Div (widenToS f a) (widenToS f b))) := by
  simp only [QuotientResult, f32Div, widenToS_infinite_iff, widenToS_zero_iff, widenToS_sign]
  split_ifs with hinvalid hia hib hzb
  · exact demote_none f
  · exact demote_infinite f _
  · exact demote_zero f _
  · exact demote_infinite f _
  · have hquotient : |value f.tag a / value f.tag b| = (magUnits .s (widenToS f a) : ℚ) / magUnits .s (widenToS f b) := by
      rw [abs_div, abs_value_eq_promoted (isFinite_of_not ha hia), abs_value_eq_promoted (isFinite_of_not hb hib)]
      exact div_div_div_cancel_right₀ (Nat.cast_ne_zero.2 sUnit_pos.ne') ..
    rw [hquotient]
    exact demoted_rne f _ _ (Nat.pos_of_ne_zero (mt magUnits_widenToS_eq_zero.1 hzb))

/-! ### Remainders (R186) -/

/-- The truncated remainder of two signed magnitudes is the magnitudes' remainder with the dividend's sign. -/
theorem tmod_signed (s t : Bool) (m n : Nat) :
    (if s then -(m : ℤ) else m).tmod (if t then -(n : ℤ) else n) = if s then -((m % n : Nat) : ℤ) else ((m % n : Nat) : ℤ) := by
  cases s <;> cases t <;> simp only [Bool.false_eq_true, if_false, if_true, Int.neg_tmod, Int.tmod_neg, Int.ofNat_tmod]

/-- A magnitude of binary32 is itself after rounding. -/
theorem rne_magUnits {z : BitVec 32} (hz : IsFinite .s z) : rne .s (fields .s z).s (magUnits .s z) sUnit = z :=
  rne_exact rfl hz sUnit_pos (Nat.mul_comm _ _)

/-- A zero magnitude rounds to the zero of the sign. -/
theorem rne_zero (s : Bool) : rne .s s 0 sUnit = (pack .s s 0 0 : BitVec 32) := by
  have hfields := fields_pack (n := 32) (T := .s) (e := 0) (m := 0) rfl (s := s) (by decide) (by decide)
  have hmag : magUnits .s (pack .s s 0 0 : BitVec 32) = 0 := by rw [magUnits, hfields]; rfl
  have hround := rne_magUnits (z := pack .s s 0 0) (isFinite_iff.2 (by rw [hfields]; exact (by decide : 0 ≠ emaxField .s)))
  rwa [hfields, hmag] at hround

/-- The remainder of two finite patterns is the remainder of their magnitudes, with the dividend's sign, rounded to binary32. -/
theorem f32Rem_finite {A B : BitVec 32} (hA : IsFinite .s A) (hB : IsFinite .s B) (hB0 : classOf .s B ≠ .zero) :
    f32Rem A B = some (rne .s (fields .s A).s (magUnits .s A % magUnits .s B) sUnit) := by
  have hiA : classOf .s A ≠ .infinite := fun h => not_isFinite_iff.2 (.inr h) hA
  have hiB : classOf .s B ≠ .infinite := fun h => not_isFinite_iff.2 (.inr h) hB
  have hr : signedUnits .s A - signedUnits .s B * (signedUnits .s A).tdiv (signedUnits .s B) =
      if (fields .s A).s then -((magUnits .s A % magUnits .s B : Nat) : ℤ) else ((magUnits .s A % magUnits .s B : Nat) : ℤ) := by
    rw [← Int.tmod_def, signedUnits, signedUnits, tmod_signed]
  simp only [f32Rem, hiA, hiB, hB0, hr, or_self, if_false]
  by_cases hA0 : classOf .s A = .zero
  · have hm := classOf_zero_iff_units.1 hA0
    rw [if_pos hA0, hm, Nat.zero_mod, ← hm, rne_magUnits hA]
  rw [if_neg hA0]
  generalize magUnits .s A % magUnits .s B = k
  by_cases hk : k = 0
  · subst hk
    simp [rne_zero]
  · have hpos : 0 < k := Nat.pos_of_ne_zero hk
    have hnonneg : ¬ (k : ℤ) < 0 := by omega
    cases (fields .s A).s <;> simp [hk, hpos, hnonneg]

/-- The remainder of two finite patterns is a finite pattern with the dividend's sign: it is a multiple of the finer
operand's unit in the last place and not above that operand, so it needs no more bits than that operand's significand. -/
theorem exists_remainder {n : Nat} {T : Tag} (hn : n = patWidth T) {a b : BitVec n} (ha : IsFinite T a) (hb : magUnits T b ≠ 0) :
    ∃ x : BitVec n, IsFinite T x ∧ (fields T x).s = (fields T a).s ∧ magUnits T x = magUnits T a % magUnits T b := by
  obtain ⟨j, k, -, hk, -, hak⟩ := unitsOf_form T (bitsOf T a)
  obtain ⟨j', k', -, hk', -, hbk⟩ := unitsOf_form T (bitsOf T b)
  rw [← magUnits_eq_unitsOf] at hak hbk
  suffices h : ∃ c i, c < 2 ^ (mw T + 1) ∧ magUnits T a % magUnits T b = c * 2 ^ i by
    obtain ⟨c, i, hc, hmod⟩ := h
    rw [hmod]
    exact exists_pattern hn _ hc ha (hmod ▸ Nat.mod_le _ _)
  rw [hbk] at hb
  rw [hak, hbk]
  rcases le_total j j' with hj | hj
  · obtain ⟨i, rfl⟩ := Nat.exists_eq_add_of_le hj
    refine ⟨k % (k' * 2 ^ i), j, (Nat.mod_le _ _).trans_lt hk, ?_⟩
    rw [← Nat.mul_mod_mul_right, mul_assoc, ← pow_add, Nat.add_comm i]
  · obtain ⟨i, rfl⟩ := Nat.exists_eq_add_of_le hj
    refine ⟨k * 2 ^ i % k', j', (Nat.mod_lt _ (Nat.pos_of_ne_zero ?_)).trans hk', ?_⟩
    · rintro rfl
      exact hb (Nat.zero_mul _)
    · rw [← Nat.mul_mod_mul_right, mul_assoc, ← pow_add, Nat.add_comm i]

/-- Two finite operands' remainder is a 16-bit pattern already: promotion and demotion round nothing. -/
theorem demote_f32Rem {f : Fmt} {a b x : Pat16} (ha : IsFinite f.tag a) (hb : IsFinite f.tag b) (hzb : ¬ IsZero16 b)
    (hx : IsFinite f.tag x) (hs : (fields f.tag x).s = (fields f.tag a).s) (hm : magUnits f.tag x = magUnits f.tag a % magUnits f.tag b) :
    demote f (f32Rem (widenToS f a) (widenToS f b)) = x := by
  obtain ⟨hA, hAs, hAm⟩ := widenToS_finite ha
  obtain ⟨hB, -, hBm⟩ := widenToS_finite hb
  obtain ⟨hX, hXs, hXm⟩ := widenToS_finite hx
  rw [f32Rem_finite hA hB (mt (widenToS_zero_iff f b).1 hzb), hAm, hBm, Nat.mul_mod_mul_right, ← hm, ← hXm, hAs, ← hs, ← hXs,
    rne_magUnits hX, demote_widenToS]

/-- Truncating a signed quotient of magnitudes. -/
theorem truncQ_signed (s : Bool) (m n : Nat) : (truncQ (signFactor s * (m / n)) : ℚ) = signFactor s * (m / n : Nat) := by
  have h0 : (0 : ℚ) ≤ m / n := by positivity
  have hfloor : truncQ ((m : ℚ) / n) = (m / n : Nat) := by
    rw [truncQ, if_pos h0, Rat.floor_natCast_div_natCast]
    rfl
  have hneg : truncQ (-((m : ℚ) / n)) = -truncQ ((m : ℚ) / n) := by
    rcases h0.eq_or_lt with h | h
    · rw [← h]
      simp [truncQ]
    · rw [truncQ, truncQ, if_neg (by linarith), if_pos h0, Int.ceil_neg]
  cases s with
  | false => simp only [signFactor, Bool.false_eq_true, if_false, one_mul, hfloor, Int.cast_natCast]
  | true => simp only [signFactor, if_true, neg_one_mul, hneg, hfloor, Int.cast_neg, Int.cast_natCast]

/-- A finite pattern with the remainder's sign and magnitude has the remainder's value. -/
theorem value_remainder {n : Nat} {T : Tag} {a b x : BitVec n} (ha : IsFinite T a) (hb : IsFinite T b) (hx : IsFinite T x)
    (hs : (fields T x).s = (fields T a).s) (hm : magUnits T x = magUnits T a % magUnits T b) :
    value T x = value T a - value T b * truncQ (value T a / value T b) := by
  have hu := (unitValue_pos T).ne'
  have hquotient : value T a / value T b = signFactor (xor (fields T a).s (fields T b).s) * ((magUnits T a : ℚ) / magUnits T b) := by
    rw [value_eq_units ha, value_eq_units hb, mul_div_mul_right _ _ hu]
    cases (fields T a).s <;> cases (fields T b).s <;> simp [signFactor, neg_div, div_neg]
  have hsign : signFactor (fields T b).s * signFactor (xor (fields T a).s (fields T b).s) = signFactor (fields T a).s := by
    cases (fields T a).s <;> cases (fields T b).s <;> simp [signFactor]
  have hdiv : (magUnits T a : ℚ) = magUnits T b * (magUnits T a / magUnits T b : Nat) + (magUnits T a % magUnits T b : Nat) := by
    exact_mod_cast (Nat.div_add_mod _ _).symm
  rw [hquotient, truncQ_signed, value_eq_units ha, value_eq_units hb, value_eq_units hx, hs, hm]
  linear_combination -(signFactor (fields T a).s * unitValue T) * hdiv +
    magUnits T b * (magUnits T a / magUnits T b : Nat) * unitValue T * hsign

/-- The demoted remainder of two numbers, of which either may be infinite. -/
theorem remainderResult_f32Rem {f : Fmt} {a b : Pat16} (ha : ¬ IsNaN16 f a) (hb : ¬ IsNaN16 f b) :
    RemainderResult f a b (demote f (f32Rem (widenToS f a) (widenToS f b))) := by
  unfold RemainderResult
  split_ifs with hinvalid hib
  · simp only [f32Rem, widenToS_infinite_iff, widenToS_zero_iff, if_pos hinvalid, demote_none]
  · simp only [f32Rem, widenToS_infinite_iff, widenToS_zero_iff, if_neg hinvalid, if_pos hib, demote_widenToS]
  · obtain ⟨hia, hzb⟩ := not_or.1 hinvalid
    have hfa := isFinite_of_not ha hia
    have hfb := isFinite_of_not hb hib
    obtain ⟨x, hx, hs, hm⟩ := exists_remainder (patWidth_tag f).symm hfa (b := b) (mt (magUnits_eq_zero f b).1 hzb)
    rw [demote_f32Rem hfa hfb hzb hx hs hm]
    exact ⟨(isFinite16_iff f x).1 hx, by rw [← sign16_eq f, hs, sign16_eq], value_remainder hfa hfb hx hs hm⟩

/-! ### The operations (R190 to R195) -/

/-- Settles O28, by the demoted sum (`sumResult_f32Add`). -/
theorem addResult : Obligations.AddResult := by
  unfold Obligations.AddResult
  exact ⟨⟨rfl, rfl⟩, fun f s => binary_dispatched rfl sumResult_f32Add⟩

/-- Settles O29: SUB is the sum with the promoted second operand's sign inverted, which is inverted before promotion as well
(`widenToS_flipSign`). -/
theorem subResult : Obligations.SubResult := by
  unfold Obligations.SubResult
  refine ⟨⟨rfl, rfl⟩, fun f s => binary_dispatched rfl fun ha hb => ?_⟩
  rw [f32Sub, widenToS_flipSign]
  exact sumResult_f32Add ha (by rwa [isNaN16_flipSign])

/-- Settles O30, by the demoted product (`productResult_f32Mul`). -/
theorem mulResult : Obligations.MulResult := by
  unfold Obligations.MulResult
  exact ⟨⟨rfl, rfl⟩, fun f s => binary_dispatched rfl productResult_f32Mul⟩

/-- Settles O31, by the demoted quotient (`quotientResult_f32Div`). -/
theorem divResult : Obligations.DivResult := by
  unfold Obligations.DivResult
  exact ⟨⟨rfl, rfl⟩, fun f s => binary_dispatched rfl quotientResult_f32Div⟩

/-- Settles O32, by the demoted remainder (`remainderResult_f32Rem`). -/
theorem remResult : Obligations.RemResult := by
  unfold Obligations.RemResult
  exact ⟨⟨rfl, rfl⟩, fun f s => binary_dispatched rfl remainderResult_f32Rem⟩

/-- Settles O33: NEG answers the pattern with its sign bit inverted. -/
theorem negInvertsSign : Obligations.NegInvertsSign := by
  unfold Obligations.NegInvertsSign
  exact ⟨⟨rfl, rfl⟩, fun f s => ⟨_, magBits_flipSign _, sign16_flipSign _, dispatched_of_exec (mw_pos _) rfl⟩⟩

end Sys2Proof.Machine
end

section
/-! PROOFS. The statements about predicates, comparisons and orders (43_scalar.md). A class is told by the magnitude bits
(`classCode_classOf`), a relation by the extended values (`rel_less_iff` and its fellows), and a key by the sign and the magnitude bits;
the keys stand in the order of R233's words (`tkey_lt_iff`), which TOTALCMP and the minima and maxima read off. -/

namespace Sys2Proof.Machine

/-! ### Boolean answers (R63) -/

/-- The bits A[14:0]. -/
theorem magBits_opA16 (s : State) : magBits (opA16 s) = s.port.a.toNat % 0x8000 := by
  rw [magBits, opA16, BitVec.toNat_setWidth, Nat.mod_mod_of_dvd _ (by decide)]

/-- A decided condition answers 1 where it holds and 0 where it does not. -/
theorem answerBool_decide {p q : Prop} [Decidable p] [Decidable q] (h : p ↔ q) (s : State) :
    answerBool (decide p) s = .next (s.answered (if q then 1 else 0) []) := by
  simp only [answerBool, answer_eq, decide_eq_true_eq, h]

/-- The same answer for a condition that need not be decidable. -/
theorem exists_answerBool {p q : Prop} [Decidable p] (h : p ↔ q) (s : State) :
    ∃ r : Word64, answerBool (decide p) s = .next (s.answered r []) ∧ r.toNat ≤ 1 ∧ (r = 1 ↔ q) := by
  refine ⟨_, answerBool_decide Iff.rfl s, ?_⟩
  rw [← h]
  split_ifs with hp <;> simp [hp]

/-! ### Predicates and classes (R220 to R224) -/

/-- The sign bit of a pattern as a bit of its port (R223). -/
theorem getLsbD_opA16 (s : State) : (opA16 s).getLsbD 15 = decide (s.port.a.toNat / 0x8000 % 2 = 1) := by
  rw [opA16, BitVec.getLsbD_setWidth, BitVec.getLsbD, Nat.testBit_eq_decide_div_mod_eq]
  rfl

/-- Settles O34: each class test is a comparison of the magnitude bits with the infinity's, and the sign is read as it stands. -/
theorem predicateResults : Obligations.PredicateResults := by
  unfold Obligations.PredicateResults
  refine ⟨⟨rfl, rfl⟩, ⟨rfl, rfl⟩, ⟨rfl, rfl⟩, ⟨rfl, rfl⟩, fun f s => ?_⟩
  rw [← magBits_opA16]
  refine ⟨answerBool_decide (isNaN16_iff f _) s, answerBool_decide (isInf16_iff f _) s,
    answerBool_decide (p := _ ∨ _ ∨ _) (isFinite16_iff f _) s, ?_⟩
  have hsign : exec (.issignneg f) s = answerBool (decide (s.port.a.toNat / 0x8000 % 2 = 1)) s := by
    rw [← getLsbD_opA16]
    rfl
  rw [hsign, answerBool_decide Iff.rfl]
  rcases Nat.mod_two_eq_zero_or_one (s.port.a.toNat / 0x8000) with h | h <;> rw [h] <;> rfl

/-- A subnormal, by its bits (R106). -/
theorem isSubnormal16_iff (f : Fmt) (a : Pat16) : classOf f.tag a = .subnormal ↔ 0 < magBits a ∧ magBits a < normalBits f := by
  have h := magBits_eq f a
  rw [classOf_subnormal, ← h]
  have hm := fields_m_lt f.tag a
  cases f <;> simp [Fmt.tag, mw, normalBits] at * <;> omega

/-- The class code of a pattern, by its magnitude bits (R224). -/
theorem classCode_classOf (f : Fmt) (a : Pat16) :
    classCode (classOf f.tag a) =
      if infBits f < magBits a then 0 else if magBits a = infBits f then 1 else if magBits a = 0 then 2
      else if magBits a < normalBits f then 3 else 4 := by
  have hnan := isNaN16_iff f a
  have hinf := isInf16_iff f a
  have hzero := isZero16_iff f a
  have hsub := isSubnormal16_iff f a
  split_ifs with h1 h2 h3 h4
  · rw [hnan.2 h1]; rfl
  · rw [hinf.2 h2]; rfl
  · rw [hzero.2 h3]; rfl
  · rw [hsub.2 ⟨Nat.pos_of_ne_zero h3, h4⟩]; rfl
  · have hnormal : classOf f.tag a = .normal := by
      cases hc : classOf f.tag a with
      | nan => exact absurd (hnan.1 hc) h1
      | infinite => exact absurd (hinf.1 hc) h2
      | zero => exact absurd (hzero.1 hc) h3
      | subnormal => exact absurd (hsub.1 hc).2 h4
      | normal => rfl
    rw [hnormal]; rfl

/-- Settles O35, by the class code of the magnitude bits (`classCode_classOf`). -/
theorem classifyResult : Obligations.ClassifyResult := by
  unfold Obligations.ClassifyResult
  refine ⟨⟨rfl, rfl⟩, fun f s => ?_⟩
  rw [← magBits_opA16, ← classCode_classOf]
  rfl

/-! ### The relation of two patterns (R226) -/

/-- A NaN is unordered with everything. -/
theorem rel_unordered {f : Fmt} {a b : Pat16} (h : IsNaN16 f a ∨ IsNaN16 f b) : rel f.tag a b = .unordered := by
  rw [← isNaN16_iff, ← isNaN16_iff] at h
  rw [rel, if_pos h]

section Numbers

variable {f : Fmt} {a b : Pat16} (ha : ¬ IsNaN16 f a) (hb : ¬ IsNaN16 f b)
include ha hb

/-- Two numbers stand in the relation of their values. -/
theorem rel_numbers : rel f.tag a b =
    if extValue f.tag a < extValue f.tag b then .less else if extValue f.tag a = extValue f.tag b then .equal else .greater := by
  rw [rel, if_neg (by rw [isNaN16_iff, isNaN16_iff]; exact not_or.2 ⟨ha, hb⟩)]
  simp only [extValue_lt_iff ha hb, extValue_eq_iff ha hb]

theorem rel_less_iff : rel f.tag a b = .less ↔ extValue f.tag a < extValue f.tag b := by
  rw [rel_numbers ha hb]
  split_ifs with h <;> simp [h]

theorem rel_equal_iff : rel f.tag a b = .equal ↔ extValue f.tag a = extValue f.tag b := by
  rw [rel_numbers ha hb]
  split_ifs with hlt heq
  · simp [hlt.ne]
  · simp [heq]
  · simp [heq]

theorem rel_greater_iff : rel f.tag a b = .greater ↔ extValue f.tag b < extValue f.tag a := by
  rw [rel_numbers ha hb]
  split_ifs with hlt heq
  · simp [hlt.le]
  · simp [heq]
  · simpa using lt_of_le_of_ne (not_lt.1 hlt) (Ne.symm heq)

theorem rel_less_or_equal_iff : rel f.tag a b = .less ∨ rel f.tag a b = .equal ↔ extValue f.tag a ≤ extValue f.tag b := by
  rw [rel_less_iff ha hb, rel_equal_iff ha hb, le_iff_lt_or_eq]

theorem rel_greater_or_equal_iff : rel f.tag a b = .greater ∨ rel f.tag a b = .equal ↔ extValue f.tag b ≤ extValue f.tag a := by
  rw [rel_greater_iff ha hb, rel_equal_iff ha hb, le_iff_lt_or_eq, eq_comm]

end Numbers

/-- A comparison that an unordered pair does not meet answers 0. -/
theorem answerBool_decide_false {p : Prop} [Decidable p] (h : ¬ p) (s : State) : answerBool (decide p) s = .next (s.answered 0 []) :=
  answerBool_decide (iff_false_intro h) s

/-- Settles O36: a NaN makes the pair unordered, and numbers are compared by their extended values. -/
theorem comparisonResults : Obligations.ComparisonResults := by
  unfold Obligations.ComparisonResults
  refine ⟨⟨rfl, rfl⟩, ⟨rfl, rfl⟩, ⟨rfl, rfl⟩, ⟨rfl, rfl⟩, ⟨rfl, rfl⟩, ⟨rfl, rfl⟩, fun f s => ⟨fun hnan => ?_, fun ha hb => ?_⟩⟩
  · have hrel : rel f.tag (opA16 s) (opB16 s) = .unordered := rel_unordered hnan
    refine ⟨answerBool_decide (q := True) (by simp [hrel]) s, ?_⟩
    simp only [List.forall_mem_cons, List.not_mem_nil, false_imp_iff, implies_true, and_true]
    refine ⟨answerBool_decide_false ?_ s, answerBool_decide_false ?_ s, answerBool_decide_false ?_ s, answerBool_decide_false ?_ s,
      answerBool_decide_false ?_ s⟩ <;> simp [hrel]
  · refine ⟨answerBool_decide (rel_equal_iff ha hb) s, ?_, exists_answerBool (rel_less_iff ha hb) s,
      exists_answerBool (rel_less_or_equal_iff ha hb) s, exists_answerBool (rel_greater_iff ha hb) s,
      exists_answerBool (rel_greater_or_equal_iff ha hb) s⟩
    rw [← ite_not]
    exact answerBool_decide (not_congr (rel_equal_iff ha hb)) s

/-! ### The total order (R233) -/

/-- A pattern is told by its sign and its magnitude bits. -/
theorem eq_of_sign_mag {a b : Pat16} (hs : sign16 a = sign16 b) (hm : magBits a = magBits b) : a = b := by
  apply BitVec.eq_of_toNat_eq
  rw [toNat_eq_sign_mag, toNat_eq_sign_mag b, hs, hm]

theorem magBits_lt (a : Pat16) : magBits a < 0x8000 := Nat.mod_lt _ (by decide)

/-- The order of two numbers' signed units, by their signs and magnitude bits. -/
theorem signedUnits_lt_iff (f : Fmt) (a b : Pat16) :
    signedUnits f.tag a < signedUnits f.tag b ↔
      (if sign16 a then -(magBits a : ℤ) else magBits a) < (if sign16 b then -(magBits b : ℤ) else magBits b) := by
  have hlt := magUnits_lt_iff f a b
  have hgt := magUnits_lt_iff f b a
  have hza := magUnits_eq_zero f a
  have hzb := magUnits_eq_zero f b
  rw [signedUnits, signedUnits, sign16_eq, sign16_eq]
  cases sign16 a <;> cases sign16 b <;> simp only [if_true, Bool.false_eq_true, if_false] <;> omega

/-- The key of a number lies below 0x10000, mirrored for a negative sign. -/
theorem tkey_number {f : Fmt} {a : Pat16} (ha : ¬ IsNaN16 f a) :
    tkey f.tag a = if sign16 a then 0x7FFF - magBits a else 0x8000 + magBits a := by
  rw [tkey, if_neg (mt (isNaN16_iff f a).1 ha), sign16_eq]
  rfl

/-- The key of a NaN is its mantissa above its sign, from 0x10000 up. -/
theorem tkey_nan {f : Fmt} {a : Pat16} (ha : IsNaN16 f a) :
    tkey f.tag a = 0x10000 + (magBits a - infBits f) * 2 + (sign16 a).toNat := by
  have hnan := (isNaN16_iff f a).2 ha
  rw [tkey, if_pos hnan, sign16_eq, ← magBits_eq f a, (classOf_nan.1 hnan).1, infBits_eq, Nat.add_sub_cancel_left]

theorem tkey_number_lt {f : Fmt} {a : Pat16} (ha : ¬ IsNaN16 f a) : tkey f.tag a < 0x10000 := by
  have := magBits_lt a
  rw [tkey_number ha]
  split <;> omega

theorem tkey_nan_ge {f : Fmt} {a : Pat16} (ha : IsNaN16 f a) : 0x10000 ≤ tkey f.tag a := by
  rw [tkey_nan ha]
  omega

/-- The keys of two NaNs are ordered by mantissa and then by sign. -/
theorem tkey_lt_iff_of_nan {f : Fmt} {a b : Pat16} (ha : IsNaN16 f a) (hb : IsNaN16 f b) :
    tkey f.tag a < tkey f.tag b ↔ magBits a < magBits b ∨ (magBits a = magBits b ∧ sign16 a = false ∧ sign16 b = true) := by
  rw [tkey_nan ha, tkey_nan hb]
  unfold IsNaN16 at ha hb
  cases sign16 a <;> cases sign16 b <;> simp <;> omega

/-- The keys of two numbers are ordered by value, with -0 directly below +0. -/
theorem tkey_lt_iff_of_number {f : Fmt} {a b : Pat16} (ha : ¬ IsNaN16 f a) (hb : ¬ IsNaN16 f b) :
    tkey f.tag a < tkey f.tag b ↔
      extValue f.tag a < extValue f.tag b ∨ (IsZero16 a ∧ IsZero16 b ∧ sign16 a = true ∧ sign16 b = false) := by
  have hma := magBits_lt a
  have hmb := magBits_lt b
  rw [extValue_lt_iff ha hb, signedUnits_lt_iff, tkey_number ha, tkey_number hb, IsZero16, IsZero16]
  cases sign16 a <;> cases sign16 b <;> simp <;> omega

/-- The keys order the patterns as R233's words do. -/
theorem tkey_lt_iff (f : Fmt) (a b : Pat16) : tkey f.tag a < tkey f.tag b ↔ TotalBelow f a b := by
  unfold TotalBelow
  by_cases ha : IsNaN16 f a <;> by_cases hb : IsNaN16 f b
  · simp only [tkey_lt_iff_of_nan ha hb, ha, hb, not_true_eq_false, false_and, and_false, true_and, false_or, or_false]
  · have := (tkey_number_lt hb).trans_le (tkey_nan_ge ha)
    simp only [ha, hb, this.not_gt, not_true_eq_false, false_and, and_false, or_self]
  · have := (tkey_number_lt ha).trans_le (tkey_nan_ge hb)
    simp only [ha, hb, this, not_false_eq_true, and_self, true_or]
  · simp only [tkey_lt_iff_of_number ha hb, ha, hb, not_false_eq_true, false_and, and_false, true_and, false_or]

/-- Different patterns have different keys. -/
theorem tkey_injective {f : Fmt} {a b : Pat16} (h : tkey f.tag a = tkey f.tag b) : a = b := by
  have hma := magBits_lt a
  have hmb := magBits_lt b
  have hkeys : sign16 a = sign16 b ∧ magBits a = magBits b := by
    by_cases ha : IsNaN16 f a <;> by_cases hb : IsNaN16 f b
    · rw [tkey_nan ha, tkey_nan hb] at h
      unfold IsNaN16 at ha hb
      cases hs : sign16 a <;> cases ht : sign16 b <;> simp [hs, ht] at h ⊢ <;> omega
    · exact absurd h ((tkey_number_lt hb).trans_le (tkey_nan_ge ha)).ne'
    · exact absurd h ((tkey_number_lt ha).trans_le (tkey_nan_ge hb)).ne
    · rw [tkey_number ha, tkey_number hb] at h
      cases hs : sign16 a <;> cases ht : sign16 b <;> simp [hs, ht] at h ⊢ <;> omega
  exact eq_of_sign_mag hkeys.1 hkeys.2

/-- Settles O38: R233's order is the order of the keys, which are numbers and differ for different patterns. -/
theorem totalOrderIsStrict : Obligations.TotalOrderIsStrict := by
  unfold Obligations.TotalOrderIsStrict
  intro f
  refine ⟨fun a b => tkey_injective, tkey_lt_iff f, ?_⟩
  simp only [← tkey_lt_iff]
  exact ⟨fun a => lt_irrefl _, fun a b c => lt_trans, fun a b hne => lt_or_gt_of_ne (mt tkey_injective hne)⟩

/-- The order code of two patterns' keys (R234). -/
theorem orderCode_tkey (f : Fmt) (a b : Pat16) :
    (orderCode (tkey f.tag a) (tkey f.tag b) = 0xFFFFFFFFFFFFFFFF#64 ↔ TotalBelow f a b) ∧
    (orderCode (tkey f.tag a) (tkey f.tag b) = 0 ↔ a = b) ∧
    (orderCode (tkey f.tag a) (tkey f.tag b) = 1 ↔ TotalBelow f b a) ∧
    (orderCode (tkey f.tag a) (tkey f.tag b) = 0xFFFFFFFFFFFFFFFF#64 ∨ orderCode (tkey f.tag a) (tkey f.tag b) = 0 ∨
      orderCode (tkey f.tag a) (tkey f.tag b) = 1) := by
  have heq : a = b ↔ tkey f.tag a = tkey f.tag b := ⟨congrArg (tkey f.tag), tkey_injective⟩
  rw [← tkey_lt_iff, ← tkey_lt_iff, heq, orderCode]
  split_ifs with hlt hkeys
  · simp [hlt, hlt.ne, hlt.le]
  · simp [hkeys]
  · simp [hlt, hkeys, lt_of_le_of_ne (not_lt.1 hlt) (Ne.symm hkeys)]

/-- Settles O37: TOTALCMP answers the order code of the operands' keys. -/
theorem totalCompareResult : Obligations.TotalCompareResult := by
  unfold Obligations.TotalCompareResult
  exact ⟨⟨rfl, rfl⟩, fun f s => ⟨_, rfl, orderCode_tkey f (opA16 s) (opB16 s)⟩⟩

/-! ### Minimum and maximum (R235) -/

/-- `P` is the operand below which neither operand lies. -/
def IsLowest (f : Fmt) (a b P : Pat16) : Prop := (P = a ∨ P = b) ∧ ¬ TotalBelow f a P ∧ ¬ TotalBelow f b P

/-- `P` is the operand that lies below neither operand. -/
def IsHighest (f : Fmt) (a b P : Pat16) : Prop := (P = a ∨ P = b) ∧ ¬ TotalBelow f P a ∧ ¬ TotalBelow f P b

theorem isLowest_keyLo (f : Fmt) (a b : Pat16) : IsLowest f a b (keyLo f.tag a b) := by
  simp only [IsLowest, ← tkey_lt_iff, keyLo]
  split_ifs with h
  · exact ⟨.inl rfl, lt_irrefl _, h.not_gt⟩
  · exact ⟨.inr rfl, h, lt_irrefl _⟩

theorem isHighest_keyHi (f : Fmt) (a b : Pat16) : IsHighest f a b (keyHi f.tag a b) := by
  simp only [IsHighest, ← tkey_lt_iff, keyHi]
  split_ifs with h
  · exact ⟨.inr rfl, h.not_gt, lt_irrefl _⟩
  · exact ⟨.inl rfl, lt_irrefl _, h⟩

section Pick

variable {f : Fmt} {pick : Pat16 → Pat16 → Pat16} {Result : Pat16 → Prop} {a b : Pat16}

/-- The NaN cases of MIN and MAX, with what is known of the pick between two numbers. -/
theorem ignoreNaN_spec (h : Result (pick a b)) :
    if IsNaN16 f a then
      (if IsNaN16 f b then ignoreNaN f.tag pick a b = a ||| quietMask f else ignoreNaN f.tag pick a b = b)
    else if IsNaN16 f b then ignoreNaN f.tag pick a b = a
    else Result (ignoreNaN f.tag pick a b) := by
  simp only [ignoreNaN, isNaN16_iff, setQuiet_eq]
  by_cases ha : IsNaN16 f a <;> by_cases hb : IsNaN16 f b
  · simp only [ha, hb, and_self, if_true]
  · simp only [ha, hb, and_false, if_true, if_false]
  · simp only [ha, hb, false_and, if_true, if_false]
  · simpa only [ha, hb, and_self, if_false] using h

/-- The NaN policy of R187 holds of MINIMUM and MAXIMUM, with what is known of the pick between two numbers. -/
theorem nanFirst_propagateNaN (h : Result (pick a b)) :
    nanFirst f a b (propagateNaN f.tag pick a b) (Result (propagateNaN f.tag pick a b)) := by
  simp only [nanFirst, propagateNaN, isNaN16_iff, setQuiet_eq]
  split_ifs
  · rfl
  · rfl
  · exact h

end Pick

/-- Settles O39: MIN picks the lower key and MAX the higher one, where neither operand is a NaN. -/
theorem minMaxIgnoreNaN : Obligations.MinMaxIgnoreNaN := by
  unfold Obligations.MinMaxIgnoreNaN
  refine ⟨⟨rfl, rfl⟩, ⟨rfl, rfl⟩, fun f s => ⟨?_, ?_⟩⟩
  · exact ⟨_, ignoreNaN_spec (Result := IsLowest f _ _) (isLowest_keyLo f (opA16 s) (opB16 s)), dispatched_of_exec (mw_pos _) rfl⟩
  · exact ⟨_, ignoreNaN_spec (Result := IsHighest f _ _) (isHighest_keyHi f (opA16 s) (opB16 s)), dispatched_of_exec (mw_pos _) rfl⟩

/-- Settles O40: MINIMUM picks the lower key and MAXIMUM the higher one, where neither operand is a NaN. -/
theorem minimumMaximumPropagateNaN : Obligations.MinimumMaximumPropagateNaN := by
  unfold Obligations.MinimumMaximumPropagateNaN
  refine ⟨⟨rfl, rfl⟩, ⟨rfl, rfl⟩, fun f s => ⟨?_, ?_⟩⟩
  · exact ⟨_, nanFirst_propagateNaN (Result := IsLowest f _ _) (isLowest_keyLo f (opA16 s) (opB16 s)), dispatched_of_exec (mw_pos _) rfl⟩
  · exact ⟨_, nanFirst_propagateNaN (Result := IsHighest f _ _) (isHighest_keyHi f (opA16 s) (opB16 s)), dispatched_of_exec (mw_pos _) rfl⟩

end Sys2Proof.Machine
end

section
/-! PROOFS. The statements about the renderings (44_format.md). Packed characters are read back byte by byte (`packText_char`), no
operation but FMTDEC reads FEAT_STD (`exec_withFeatStd`), and a rendering has the properties of R263 exactly when its texts pass the
model's checks (`renderOk_iff`), which is what restricting a rendering keeps. -/

namespace Sys2Proof.Machine

/-! ### The raw-bits characters (R44, R260) -/

/-- A character packed before at most seven others stands in the lowest byte, below them. -/
theorem toNat_packText_cons (c : Byte) {cs : List Byte} (h : cs.length < 8) :
    (packText (c :: cs)).toNat = c.toNat + 2 ^ 8 * (packText cs).toNat := by
  have hcs : 2 ^ 8 * (packText cs).toNat < 2 ^ 64 :=
    calc 2 ^ 8 * (packText cs).toNat < 2 ^ 8 * 2 ^ (8 * cs.length) := Nat.mul_lt_mul_of_pos_left (toNat_packText_lt cs) (by decide)
      _ = 2 ^ (8 + 8 * cs.length) := (pow_add ..).symm
      _ ≤ 2 ^ 64 := Nat.pow_le_pow_right (by decide) (by omega)
  rw [packText, BitVec.toNat_or, BitVec.toNat_setWidth_of_le (by decide), BitVec.toNat_shiftLeft, Nat.shiftLeft_eq, Nat.mul_comm,
    Nat.mod_eq_of_lt hcs, Nat.lor_comm, ← Nat.two_pow_add_eq_or_of_lt c.isLt, Nat.add_comm]

/-- Character `k` of at most eight is byte `k` of R (R44). -/
theorem packText_char {cs : List Byte} (h : cs.length ≤ 8) {k : Nat} (hk : k < cs.length) :
    some (BitVec.ofNat 8 ((packText cs).toNat / 2 ^ (8 * k))) = cs[k]? := by
  induction cs generalizing k with
  | nil => simp at hk
  | cons c cs ih =>
    rw [List.length_cons] at h hk
    rw [toNat_packText_cons c (by omega)]
    cases k with
    | zero =>
      rw [Nat.mul_zero, pow_zero, Nat.div_one, List.getElem?_cons_zero, Option.some_inj]
      apply BitVec.eq_of_toNat_eq
      rw [BitVec.toNat_ofNat, Nat.add_mul_mod_self_left, Nat.mod_eq_of_lt c.isLt]
    | succ k =>
      rw [List.getElem?_cons_succ, ← ih (by omega) (by omega), Nat.mul_succ, Nat.add_comm _ 8, pow_add, ← Nat.div_div_eq_div_mul,
        Nat.add_mul_div_left _ _ (by decide), Nat.div_eq_of_lt c.isLt, Nat.zero_add]

/-- The lower-case hexadecimal digits, in order. -/
theorem getElem?_hexDigits : ∀ d < 16,
    ([0x30#8, 0x31#8, 0x32#8, 0x33#8, 0x34#8, 0x35#8, 0x36#8, 0x37#8, 0x38#8, 0x39#8, 0x61#8, 0x62#8, 0x63#8, 0x64#8, 0x65#8,
      0x66#8] : List Byte)[d]? = some (hexDigit d) := by
  decide

/-- The digits of A[15:0] stand behind `0x`, the most significant first. -/
theorem getElem?_hexText_opA16 (s : State) {k : Nat} (hk : k < 4) :
    (hexText (opA16 s))[k + 2]? = some (hexDigit (s.port.a.toNat / 16 ^ (3 - k) % 16)) := by
  have hA : (opA16 s).toNat = s.port.a.toNat % 0x10000 := BitVec.toNat_setWidth ..
  interval_cases k <;>
    · simp only [hexText, hA, List.getElem?_cons_succ, List.getElem?_cons_zero]
      congr 2
      omega

/-- Settles O41: R packs the six characters, of which the first two are fixed and the others are the digits. -/
theorem rawBitsRendering : Obligations.RawBitsRendering := by
  unfold Obligations.RawBitsRendering
  refine ⟨⟨rfl, rfl⟩, fun f s => ⟨packText (hexText (opA16 s)), rfl, ?_, toNat_packText_lt _, fun k hk => ?_⟩⟩
  · rw [hexText, toNat_packText_cons _ (by simp), toNat_packText_cons _ (by simp)]
    simp only [BitVec.toNat_ofNat]
    omega
  · have hlen : (hexText (opA16 s)).length = 6 := rfl
    rw [packText_char (by omega) (by omega), getElem?_hexText_opA16 s hk, getElem?_hexDigits _ (Nat.mod_lt _ (by decide))]

/-! ### FMTDEC and FEAT_STD (R261, R262) -/

/-- Settles O42: the answer's byte count is of kind strlen (`kindOk_strlen`). -/
theorem decimalRendering : Obligations.DecimalRendering := by
  unfold Obligations.DecimalRendering
  refine ⟨⟨rfl, rfl⟩, fun f s => ⟨fun h => ?_, exec_fmtdec_unavailable⟩⟩
  obtain ⟨hr, hne, -⟩ := kindOk_strlen f (opA16 s)
  exact ⟨_, exec_fmtdec_available h, hr, lt_of_lt_of_eq (List.length_pos_iff.2 hne) hr.symm⟩

/-- The same next state under another FEAT_STD. -/
def outcomeWithFeatStd (b : Bool) : Host.Outcome State Fault Refusal → Host.Outcome State Fault Refusal
  | .next t => .next { t with featStd := b }
  | .fault x => .fault x
  | .refused x => .refused x

/-- The hardware dispatch does not read FEAT_STD. -/
theorem hwDispatch_withFeatStd {n : Nat} (T : Tag) (p : BitVec n) (b : Bool) (s : State) :
    hwDispatch T p { s with featStd := b } = ((hwDispatch T p s).1, { (hwDispatch T p s).2 with featStd := b }) := by
  simp only [hwDispatch]
  split <;> rfl

theorem answer_hwDispatch_withFeatStd {n : Nat} (T : Tag) (p : BitVec n) (R : BitVec n → Word64) (b : Bool) (s : State) :
    answer (R (hwDispatch T p { s with featStd := b }).1) (hwDispatch T p { s with featStd := b }).2 =
      outcomeWithFeatStd b (answer (R (hwDispatch T p s).1) (hwDispatch T p s).2) := by
  rw [hwDispatch_withFeatStd]
  rfl

/-- No operation but FMTDEC reads FEAT_STD. -/
theorem exec_withFeatStd {i : Instr} (hi : ∀ f, i ≠ .fmtdec f) (b : Bool) (s : State) :
    exec i { s with featStd := b } = outcomeWithFeatStd b (exec i s) := by
  cases i with
  | fmtdec f => exact absurd rfl (hi f)
  | frombits _ | tobits _ | isnan _ | isinf _ | isfinite _ | issignneg _ | classify _ | eq _ | ne _ | lt _ | le _
  | gt _ | ge _ | totalcmp _ | fmtbits _ => rfl
  | fromf32 _ | fromf64 _ | fromi64 _ | fromu64 _ | add _ | sub _ | mul _ | div _ | rem _ | neg _
  | min _ | max _ | minimum _ | maximum _ | tof32 _ => exact answer_hwDispatch_withFeatStd _ _ (·.setWidth 64) b s
  | tof64 _ => exact answer_hwDispatch_withFeatStd _ _ id b s

/-- Settles O43: FMTDEC with FEAT_STD = 0, and the operations that do not read it. -/
theorem featStdGatesOnlyFmtdec : Obligations.FeatStdGatesOnlyFmtdec := by
  unfold Obligations.FeatStdGatesOnlyFmtdec
  refine ⟨fun f s => exec_fmtdec_unavailable rfl, fun i s hi => ?_⟩
  obtain ⟨t, ht, -⟩ := exec_served i s
  exact ⟨t, by rw [exec_withFeatStd hi, ht, outcomeWithFeatStd], by rw [exec_withFeatStd hi, ht, outcomeWithFeatStd]⟩

/-! ### R263's checks of one text -/

/-- Finite patterns of one value are equal, or are the two zeros. -/
theorem value_eq_iff {f : Fmt} {a b : Pat16} (ha : IsFinite f.tag a) (hb : IsFinite f.tag b) :
    value f.tag a = value f.tag b ↔ a = b ∨ (IsZero16 a ∧ IsZero16 b) := by
  have hunits : signedUnits f.tag a = signedUnits f.tag b ↔
      (if sign16 a then -(magBits a : ℤ) else magBits a) = (if sign16 b then -(magBits b : ℤ) else magBits b) := by
    have hlt := signedUnits_lt_iff f a b
    have hgt := signedUnits_lt_iff f b a
    omega
  have heq : a = b ↔ sign16 a = sign16 b ∧ magBits a = magBits b :=
    ⟨fun h => h ▸ ⟨rfl, rfl⟩, fun h => eq_of_sign_mag h.1 h.2⟩
  rw [value_eq_signedUnits ha, value_eq_signedUnits hb, mul_left_inj' (unitValue_pos f.tag).ne', Int.cast_inj, hunits, heq]
  unfold IsZero16
  cases sign16 a <;> cases sign16 b <;> simp <;> omega

/-- `str` is a decimal number that rounds back to a pattern of `a`'s value (R263 (3)). -/
def DenotesValue (f : Fmt) (a : Pat16) (str : List Byte) : Prop :=
  ∃ d, parseDecimal str = some d ∧
    IsFinite f.tag (rne f.tag d.neg d.num d.den : Pat16) ∧ value f.tag (rne f.tag d.neg d.num d.den : Pat16) = value f.tag a

/-- The check of R263 (3) compares values, the two zeros being equal (log 18). -/
theorem readsBack_iff {f : Fmt} {a : Pat16} (ha : IsFinite f.tag a) (str : List Byte) :
    readsBack f a str = true ↔ DenotesValue f a str := by
  unfold readsBack DenotesValue
  cases parseDecimal str with
  | none => simp
  | some d =>
    simp only [Option.some.injEq, exists_eq_left', Bool.or_eq_true, Bool.and_eq_true, decide_eq_true_eq, isZero16_iff]
    constructor
    · intro h
      have hfin : IsFinite f.tag (rne f.tag d.neg d.num d.den : Pat16) := by
        rcases h with h | ⟨h, -⟩
        · rwa [h]
        · exact .inl ((isZero16_iff f _).2 h)
      exact ⟨hfin, (value_eq_iff hfin ha).2 h⟩
    · exact fun ⟨hfin, h⟩ => (value_eq_iff hfin ha).1 h

/-- The check of a finite pattern's text says what R263 (2) and (3) say. -/
theorem finiteTextOk_iff {f : Fmt} {a : Pat16} (ha : IsFinite f.tag a) (str : List Byte) :
    finiteTextOk f a str = true ↔
      textOk str = true ∧ DenotesValue f a str ∧ (a = 0x8000#16 → str.head? = some 0x2D#8) := by
  rw [finiteTextOk, Bool.and_eq_true, Bool.and_eq_true, readsBack_iff ha, Bool.or_eq_true, dropChar_iff, decide_eq_true_eq,
    ← imp_iff_not_or, and_assoc]

/-- The check of an infinity's or a NaN's text. -/
theorem specialTextOk_iff (str : List Byte) : specialTextOk str = true ↔ textOk str = true ∧ parseDecimal str = none := by
  rw [specialTextOk, Bool.and_eq_true, Option.isNone_iff_eq_none]

theorem isFinite_negZero (f : Fmt) : IsFinite f.tag 0x8000#16 := .inl (by cases f <;> rfl)

/-- R263 (4): the texts of the infinities and of a NaN differ (log 19). -/
def SpecialsDiffer (R : Fmt → Pat16 → List Byte) (f : Fmt) : Prop :=
  R f (infPattern f false) ≠ R f (infPattern f true) ∧
    ∀ a, classOf f.tag a = .nan → R f a ≠ R f (infPattern f false) ∧ R f a ≠ R f (infPattern f true)

/-- A rendering has the properties of R263 when each of its texts passes its check and the infinities' and NaN's differ. -/
theorem renderOk_iff {R : Fmt → Pat16 → List Byte} :
    RenderOk R ↔ (∀ f a, IsFinite f.tag a → finiteTextOk f a (R f a) = true) ∧
      (∀ f a, ¬ IsFinite f.tag a → specialTextOk (R f a) = true) ∧ ∀ f, SpecialsDiffer R f := by
  constructor
  · rintro ⟨htext, hnumber, hneg, hspecial, hdistinct⟩
    refine ⟨fun f a ha => ?_, fun f a ha => ?_, hdistinct⟩
    · exact (finiteTextOk_iff ha _).2 ⟨(textOk_iff _).2 (htext f a), hnumber f a ha, fun h => h ▸ hneg f⟩
    · exact (specialTextOk_iff _).2 ⟨(textOk_iff _).2 (htext f a), hspecial f a ha⟩
  · rintro ⟨hfinite, hspecial, hdistinct⟩
    refine ⟨fun f a => (textOk_iff _).1 ?_, fun f a ha => ?_, fun f => ?_, fun f a ha => ?_, hdistinct⟩
    · by_cases ha : IsFinite f.tag a
      · exact textOk_of_finiteTextOk (hfinite f a ha)
      · exact textOk_of_specialTextOk (hspecial f a ha)
    · obtain ⟨-, hvalue, -⟩ := (finiteTextOk_iff ha _).1 (hfinite f a ha)
      exact hvalue
    · have hzero := isFinite_negZero f
      obtain ⟨-, -, hneg⟩ := (finiteTextOk_iff hzero _).1 (hfinite f _ hzero)
      exact hneg rfl
    · exact ((specialTextOk_iff _).1 (hspecial f a ha)).2

/-! ### A restricted rendering by class -/

theorem restrictRender_finite (raw : Fmt → Pat16 → List Byte) {f : Fmt} {a : Pat16} (h : IsFinite f.tag a) :
    restrictRender raw f a = if finiteTextOk f a (raw f a) then raw f a else exactText f a := by
  unfold restrictRender
  rcases h with h | h | h <;> rw [h]

theorem restrictRender_nan (raw : Fmt → Pat16 → List Byte) {f : Fmt} {a : Pat16} (h : classOf f.tag a = .nan) :
    restrictRender raw f a = nanTextFor raw f a := by
  unfold restrictRender
  rw [h]

theorem restrictRender_infPattern (raw : Fmt → Pat16 → List Byte) (f : Fmt) (s : Bool) :
    restrictRender raw f (infPattern f s) = if s then (infTexts raw f).2 else (infTexts raw f).1 := by
  cases f <;> cases s <;> rfl

theorem pack_infinite (f : Fmt) (s : Bool) : pack f.tag s (emaxField f.tag) 0 = infPattern f s := by
  cases f <;> cases s <;> rfl

theorem not_isFinite_infPattern (f : Fmt) (s : Bool) : ¬ IsFinite f.tag (infPattern f s) :=
  not_isFinite_iff.2 (.inr (by cases f <;> cases s <;> rfl))

/-- An infinity is the pattern of its sign. -/
theorem eq_infPattern_of_infinite {f : Fmt} {a : Pat16} (h : classOf f.tag a = .infinite) : a = infPattern f (sign16 a) := by
  have hmag : magBits a = infBits f := (isInf16_iff f a).1 h
  have hnat := toNat_eq_sign_mag a
  apply BitVec.eq_of_toNat_eq
  rw [hnat, hmag]
  cases f <;> cases sign16 a <;> rfl

/-! ### Restricting gives a rendering (R263) -/

theorem infTexts_ne (raw : Fmt → Pat16 → List Byte) (f : Fmt) : (infTexts raw f).1 ≠ (infTexts raw f).2 := by
  unfold infTexts
  dsimp only
  split
  next h =>
    simp only [Bool.and_eq_true, decide_eq_true_eq] at h
    exact h.2
  next => decide

/-- A NaN's text is neither infinity's: two texts exclude at most two of the model's three. -/
theorem nanTextFor_ne (raw : Fmt → Pat16 → List Byte) (f : Fmt) (a : Pat16) :
    nanTextFor raw f a ≠ (infTexts raw f).1 ∧ nanTextFor raw f a ≠ (infTexts raw f).2 := by
  unfold nanTextFor
  dsimp only
  split_ifs with hraw h1 h2
  · simp only [Bool.and_eq_true, decide_eq_true_eq] at hraw
    exact ⟨hraw.1.2, hraw.2⟩
  · exact h1
  · exact h2
  · have h12 : nanText ≠ nanText2 := by decide
    have h13 : nanText ≠ nanText3 := by decide
    have h23 : nanText2 ≠ nanText3 := by decide
    grind

/-- Restricting any function gives a rendering with the properties of R263. -/
theorem renderOk_restrictRender (raw : Fmt → Pat16 → List Byte) : RenderOk (restrictRender raw) := by
  refine renderOk_iff.2 ⟨fun f a ha => ?_, fun f a ha => ?_, fun f => ?_⟩
  · rw [restrictRender_finite raw ha]
    exact finiteTextOk_ite ha (raw f a)
  · rcases not_isFinite_iff.1 ha with hnan | hinf
    · rw [restrictRender_nan raw hnan]
      exact specialTextOk_nanTextFor raw f a
    · rw [eq_infPattern_of_infinite hinf, restrictRender_infPattern]
      obtain ⟨hpos, hneg⟩ := specialTextOk_infTexts raw f
      split
      · exact hneg
      · exact hpos
  · rw [SpecialsDiffer, restrictRender_infPattern, restrictRender_infPattern]
    refine ⟨infTexts_ne raw f, fun a hnan => ?_⟩
    rw [restrictRender_nan raw hnan]
    exact nanTextFor_ne raw f a

/-! ### A rendering is left as it is -/

section Rendering

variable {R : Fmt → Pat16 → List Byte} (hR : RenderOk R)
include hR

/-- The infinities keep their own texts. -/
theorem infTexts_of_renderOk (f : Fmt) : infTexts R f = (R f (infPattern f false), R f (infPattern f true)) := by
  obtain ⟨-, hspecial, hdiffer⟩ := renderOk_iff.1 hR
  have hinf := fun s => hspecial f _ (not_isFinite_infPattern f s)
  simp only [infTexts, pack_infinite, hinf, (hdiffer f).1, ne_eq, not_false_eq_true, decide_true, Bool.and_self, if_true]

/-- A NaN keeps its own text. -/
theorem nanTextFor_of_renderOk {f : Fmt} {a : Pat16} (ha : classOf f.tag a = .nan) : nanTextFor R f a = R f a := by
  obtain ⟨-, hspecial, hdiffer⟩ := renderOk_iff.1 hR
  have hnan := hspecial f a (not_isFinite_iff.2 (.inl ha))
  obtain ⟨hpos, hneg⟩ := (hdiffer f).2 a ha
  simp only [nanTextFor, infTexts_of_renderOk hR, hnan, hpos, hneg, ne_eq, not_false_eq_true, decide_true, Bool.and_self, if_true]

/-- A function with the properties of R263 is left unchanged. -/
theorem restrictRender_of_renderOk (f : Fmt) (a : Pat16) : restrictRender R f a = R f a := by
  obtain ⟨hfinite, -, -⟩ := renderOk_iff.1 hR
  by_cases ha : IsFinite f.tag a
  · rw [restrictRender_finite R ha, if_pos (hfinite f a ha)]
  · rcases not_isFinite_iff.1 ha with hnan | hinf
    · rw [restrictRender_nan R hnan, nanTextFor_of_renderOk hR hnan]
    · rw [eq_infPattern_of_infinite hinf, restrictRender_infPattern, infTexts_of_renderOk hR]
      cases sign16 a <;> rfl

end Rendering

/-- Settles O44: restricting gives a rendering, and leaves a rendering as it is. -/
theorem renderingHasExactlyR263 : Obligations.RenderingHasExactlyR263 := by
  unfold Obligations.RenderingHasExactlyR263
  exact ⟨renderOk_restrictRender Config.decRenderRaw, renderOk_restrictRender, fun raw h => restrictRender_of_renderOk h⟩

end Sys2Proof.Machine
end

section
/-! PROOFS. The statements about the exception (60_exceptions.md). A presented command takes IllegalOp when R68's decision calls it
illegal (`step_of_illegal`) and runs an available operation when it does not (`step_of_legal`); that this decision agrees with R301's two
conditions is `commandLegal_eq_false_iff`. -/

namespace Sys2Proof.Machine

section Presented

variable {s t : State}

/-- Presenting a request answers nothing and changes neither FEAT_STD nor the fault record. -/
theorem presentRequest_keeps (hp : presentRequest s = some t) :
    t.featStd = s.featStd ∧ t.delivered = s.delivered ∧ t.fault = s.fault := by
  obtain ⟨pre, q, post, -, -, rfl⟩ := presentRequest_eq_some hp
  exact ⟨rfl, rfl, rfl⟩

/-- An illegal command, one whose OP is reserved or an unavailable FMTDEC, takes IllegalOp. -/
theorem step_of_illegal (hr : s.resetPending = false) (hp : presentRequest s = some t)
    (h : commandLegal t.featStd t.port.cmd = false) : step s = .next t.illegal := by
  rw [step_serve hr hp]
  cases hd : decode t.port.cmd with
  | error e => exact takeIllegalOp_eq t
  | ok i =>
    rw [commandLegal_of_ok hd] at h
    obtain ⟨hfeat, f, rfl⟩ := available_eq_false_iff.1 h
    exact exec_fmtdec_unavailable hfeat

/-- A legal command decodes to an available operation, which the step runs. -/
theorem step_of_legal (hr : s.resetPending = false) (hp : presentRequest s = some t)
    (h : commandLegal t.featStd t.port.cmd = true) : ∃ i, i.available t.featStd = true ∧ step s = exec i t := by
  rw [step_serve hr hp]
  cases hd : decode t.port.cmd with
  | error e => simp [commandLegal_of_error hd] at h
  | ok i => exact ⟨i, (commandLegal_of_ok hd).symm.trans h, rfl⟩

end Presented

/-- Settles O13: R301's conditions make the command illegal for the decoder's decision too, and such a command takes IllegalOp. -/
theorem illegalCommandResponse : Obligations.IllegalCommandResponse := by
  unfold Obligations.IllegalCommandResponse
  intro s t hr hp hill
  obtain ⟨hfeat, -, -⟩ := presentRequest_keeps hp
  exact step_of_illegal hr hp (commandLegal_eq_false_iff.2 (hfeat ▸ hill))

/-- Settles O14: any other command runs an available operation, and every such operation answers with ERR = 0. -/
theorem legalCommandNeverFails : Obligations.LegalCommandNeverFails := by
  unfold Obligations.LegalCommandNeverFails
  intro s t hr hp hlegal
  obtain ⟨hfeat, hdel, hfault⟩ := presentRequest_keeps hp
  rw [← hfeat, ← commandLegal_eq_false_iff, Bool.not_eq_false] at hlegal
  obtain ⟨i, havail, hstep⟩ := step_of_legal hr hp hlegal
  obtain ⟨r, str, k, hexec, -⟩ := exec_answersKind havail
  exact ⟨_, r, str, hstep.trans hexec, rfl, hfault, by rw [← hdel]; rfl⟩

end Sys2Proof.Machine
end

section
/-! PROOFS. The statements about reset and hazards (70_reset_and_hazards.md). That every step answers needs only the three things a step
can do (`step_cases`) and that serving answers (`step_served`); the reset sequence is `step_reset` after the host raised reset. -/

namespace Sys2Proof.Machine

/-- Settles O5: a step carries a raised reset out, stays idle, or serves the request it presents, and serving answers whether the
command is legal or not. -/
theorem everyStepAnswers : Obligations.EveryStepAnswers := by
  unfold Obligations.EveryStepAnswers
  intro s
  rcases step_cases s with ⟨-, hreset⟩ | ⟨-, -, hidle⟩ | ⟨hr, p, hp, -⟩
  · exact ⟨_, hreset⟩
  · exact ⟨_, hidle⟩
  · obtain ⟨t, hserve, -⟩ := step_served hr hp
    exact ⟨t, hserve⟩

/-- A verifiable capability is sampled as it is (R330). -/
theorem sampledCap_some (b : Bool) : sampledCap (some b) = BitVec.ofBool b := by
  cases b <;> rfl

/-- While reset is raised no request is accepted (R331). -/
theorem hostIssue_of_resetPending {s : State} (h : s.resetPending = true) (q : Request) : hostIssue q s = s :=
  if_pos h

/-- With no reset raised a request joins the waiting ones. -/
theorem hostIssue_requests {s : State} (h : s.resetPending = false) (q : Request) :
    (hostIssue q s).requests = s.requests ++ [q] := by
  simp [hostIssue, h]

/-- Settles O2: the step after the host raised reset carries it out, and accepting a request turns on whether reset is raised. -/
theorem resetSequence : Obligations.ResetSequence := by
  unfold Obligations.ResetSequence
  intro s c
  refine ⟨takeReset (hostReset c s), step_reset rfl, ?_, rfl, rfl, rfl, hostIssue_of_resetPending rfl, hostIssue_requests rfl, rfl⟩
  cases c with
  | none => rfl
  | some b => exact sampledCap_some b

end Sys2Proof.Machine
end
